-- ==== Sys2Proof/Word.lean ====
section
/-! DEFINITION. The value types of rule R17: positions, received bits and annotation records (spec 00_scope.md, 30_encoding.md).

Pos, the opaque and totally ordered position type of R9, is written `Nat` throughout (DESIGN CHOICE, log 4): the
block stores, shifts and copies positions and never computes with them, and POS_W bounds only what a port can carry.
A field or argument named `startPos`, `endPos`, `s`, `e` or `p0` is a position. -/

namespace Sys2Proof

/-- `n` fits an unsigned field of `width` bits. -/
def fitsBits (width n : Nat) : Bool :=
  decide (n < 2 ^ width)

/-- The 32-bit frame word and the `value` field of a record (R42, R62). -/
abbrev Word32 := BitVec 32

/-- A register id: the 4-bit selector (R7, R8). -/
abbrev RegId := BitVec 4

/-- A received Bit: `(value, start_position, end_position)` (R17). -/
structure Bit where
  value    : Bool
  startPos : Nat
  endPos   : Nat
deriving DecidableEq, Repr

/-- `akind` of an annotation record: 0 = SEL, 1 = FIELD (R62). -/
inductive AnnKind where
  | sel
  | field
deriving DecidableEq, Repr

/-- An annotation record, with the fields of R62. -/
structure AnnRecord where
  akind    : AnnKind
  reg      : RegId
  fidx     : Nat
  value    : Word32
  startPos : Nat
  endPos   : Nat
deriving DecidableEq, Repr

end Sys2Proof
end

