-- ==== Sys2Proof/Config.lean ====
section
/-! DEFINITION. The implementation parameters of spec 00_scope.md section 4, the form of a schema (R63), the parameters the spec leaves open as constants with no body, and the configuration State.reset carries. -/

namespace Sys2Proof

/-- A field's `value_transform` (R63, R109). `formula k` is the k-th formula given with the schema. -/
inductive Transform where
  | identity
  | lut (labels : List String)
  | formula (k : Nat)
deriving DecidableEq, Repr

/-- A field descriptor `(name, offset, width, xform)` (R63). The bounds on `offset` and `width` are
R64's checks, so both are plain numbers here. -/
structure FieldDesc where
  name   : String
  offset : Nat
  width  : Nat
  xform  : Transform
deriving DecidableEq, Repr

/-- A register schema: a finite map from register id to an ordered field list (R10), as a list of
entries (DESIGN CHOICE, log 10: the first entry of an id counts). -/
abbrev Schema := List (Nat × List FieldDesc)

/-- SPAN_MODE (R13). -/
inductive SpanMode where
  | doc
  | temporal
deriving DecidableEq, Repr

/-- The named checks of R64, in its order. -/
inductive SchemaCheck where
  | wfIds
  | wfWidth
  | wfRange
  | wfTotal
  | wfDisjoint
  | wfCount
deriving DecidableEq, Repr

/-- The parameters of one block, fixed for a whole run (R34). -/
structure Config where
  posW      : Nat
  maxFields : Nat
  spanMode  : SpanMode
  schema    : Schema
deriving DecidableEq, Repr

/-- The formulas a schema may name, total functions from a value to a string (R109, D23). OPEN in the
spec: no body, so no proof can see one (DESIGN CHOICE, log 8). -/
opaque Config.formula : Nat → Nat → String

/-- LABEL_VARIANTS: the abbreviated label of a record (R12, R112). OPEN in the spec: no body (log 9). -/
opaque Config.abbreviated : AnnRecord → Schema → String

/-- LABEL_VARIANTS: the terse label of a record (R12, R112). OPEN in the spec: no body (log 9). -/
opaque Config.terse : AnnRecord → Schema → String

/-- The spec's test schema TS (95_test_vectors.md 0.1, decision D20). It is not the reference
device's schema, and no statement rests on it. -/
def Config.testSchema : Schema :=
  [ (0, [ ⟨"INT", 4, 16, .identity⟩,
          ⟨"Prescaler", 20, 1, .lut ["4/5", "8/9"]⟩,
          ⟨"AutoCal", 21, 1, .lut ["Disabled", "Enabled"]⟩ ]),
    (1, [ ⟨"Hi", 31, 1, .identity⟩, ⟨"Wide", 4, 27, .identity⟩ ]),
    (2, []), (3, []), (4, []), (5, []),
    (6, [ ⟨"RF Output Power", 4, 2, .lut ["-4dBm", "-1dBm", "+2dBm", "+5dBm"]⟩ ]),
    (7, []), (8, []), (9, []), (10, []), (11, []),
    (12, [ ⟨"Full", 0, 32, .identity⟩ ]) ]

/-- The configuration State.reset carries (DESIGN CHOICE, log 3): the conventions of
95_test_vectors.md section 0. -/
def Config.testBench : Config :=
  { posW := 16, maxFields := 4, spanMode := .doc, schema := Config.testSchema }

end Sys2Proof
end

