-- ==== Sys2Proof/Syntax.lean ====
section
/-! DEFINITION. The five event forms, the block's "instructions" (spec 30_encoding.md R55, R57; opcode_table.json). -/

namespace Sys2Proof

/-- One input event. One constructor per row of spec/opcode_table.json. -/
inductive Instr where
  /-- `BIT v, s, e`: one received bit (R86). -/
  | bit (v : Bool) (s e : Nat)
  /-- `CS 0`: chip-select asserted (R88). -/
  | cs0
  /-- `CS 1`: chip-select deasserted, end of frame (R100). -/
  | cs1
  /-- `EVK 2`: reserved event kind 2 (R89). -/
  | evk2
  /-- `EVK 3`: reserved event kind 3 (R89). -/
  | evk3
deriving DecidableEq, Repr

end Sys2Proof
end

