-- ==== Sys2Proof/Machine/State.lean ====
section
/-! DEFINITION. The state of the block (spec 10_state.md), the outside world's inputs and the observed output, the reasons a step can stop (60_exceptions.md R131), and the state after reset (70_reset_and_hazards.md R150). -/

namespace Sys2Proof.Machine

/-- The control state (R26). -/
inductive Fsm where
  | accumulating
  | flushing
deriving DecidableEq, Repr

/-- `fl_phase` (R28): 0 while the selector record is due, 1 while field records are due. -/
inductive FlushPhase where
  | selector
  | fields
deriving DecidableEq, Repr

/-- The flush sequencer registers of R28: `fl_word`, `fl_reg`, `fl_idx` (log 26), `fl_phase`. -/
structure FlushRegs where
  word  : Word32
  reg   : RegId
  idx   : Nat
  phase : FlushPhase
deriving DecidableEq, Repr

/-- The input pins at one rising edge of `clk` (R60). -/
structure Pins where
  rst      : Bool
  inValid  : Bool
  inWord   : Nat
  annReady : Bool
deriving DecidableEq, Repr

/-- What the outside world delivers next (log 1). -/
inductive Input where
  /-- One event, as its event word (R16, R56): one atomic step of the event-level block. -/
  | event (ev : Nat)
  /-- One rising edge of `clk` with these pins: one step of the cycle-level build (R160). -/
  | edge (p : Pins)
deriving DecidableEq, Repr

/-- One emission: the record (R62) and its full label (R110, R111). -/
structure Emission where
  record : AnnRecord
  label  : String
deriving DecidableEq, Repr

/-- The document's emission of a record, R112: the four parts of 30_encoding.md R62. -/
structure DocEmission where
  startPos : Nat
  endPos   : Nat
  category : String
  labels   : List String
deriving DecidableEq, Repr

/-- What EXTRACT returns (R84). -/
structure Extracted where
  value    : Word32
  startPos : Nat
  endPos   : Nat
deriving DecidableEq, Repr

/-- The state of the block (R20). `none` in `slots` and in `fl` is the spec's own `⊥` (R14, R23, R28).
`cfg`, `inputs` and `out` are the model's own fields (log 2, 1, 6). -/
structure State where
  /-- The configuration: a parameter of the step function, carried as data and never written (R34). -/
  cfg    : Config
  /-- `sr_val[j]`, `sr_start[j]`, `sr_end[j]` together (R21, R22). -/
  slots  : Vector (Option Bit) 32
  /-- The fill count, 33 = OVER (R24). -/
  cnt    : BitVec 6
  /-- The control state (R26). -/
  fsm    : Fsm
  /-- The flush sequencer registers, cycle level only (R28). -/
  fl     : Option FlushRegs
  /-- What the outside world has still to deliver, next first. -/
  inputs : List Input
  /-- The observed output stream, in order of emission (R16, R33). -/
  out    : List Emission
deriving DecidableEq, Repr

/-- The model faults of R131. A fault ends the run; none is reachable from reset (R130). -/
inductive Fault where
  /-- Code 2. Raised by EXTRACT when `width >= 1` and `offset + width <= min(cnt, 32)` does not hold
  (R85). Safe: the spec says the same. -/
  | extract (offset width cnt : Nat)
  /-- Code 3. Raised by any read of a slot that holds `⊥` (R23). Safe: the spec says the same. -/
  | unwritten (slot : Nat)
  /-- Code 4. Raised by `render` when a transform is applied outside its domain (R109, R131).
  Safe: the spec says the same. -/
  | domain (reg : RegId) (fidx : Nat) (value : Word32)
  /-- The model's own (log 17). Raised by a flush edge when the flush registers hold `⊥` or name no
  field of `Schema(fl_reg)`. Safe: no state the block reaches raises it. -/
  | flushRegisters
deriving DecidableEq, Repr

/-- The reasons no run exists. -/
inductive Refusal where
  /-- An instruction with no meaning in the model, by its mnemonic. Safe. No arm raises it. -/
  | notModelled (mnemonic : String)
  /-- Code 1 of R131, `RefuseSchema(check)`: the schema fails a check of R64, so the block is never
  started with it. Raised by `step` before anything runs. Records the check, the register id and
  the field index where there is one. Safe: the spec says the same. -/
  | schema (check : SchemaCheck) (reg : Nat) (field : Option Nat)
  /-- MAX_FIELDS is below the least value R11 allows (log 12). Raised by `step` before anything runs. Safe. -/
  | maxFields (n : Nat)
deriving DecidableEq, Repr

/-- The reset state `s0` of a block configured as `cfg` (R150), before any input or output. -/
def State.resetWith (cfg : Config) : State :=
  { cfg := cfg
    slots := Vector.replicate 32 none
    cnt := 0
    fsm := .accumulating
    fl := none
    inputs := []
    out := [] }

/-- The machine right after reset (R150), with the configuration of log 3. -/
def State.reset : State :=
  State.resetWith Config.testBench

end Sys2Proof.Machine
end

