-- ==== Sys2Proof/Machine/SchemaCheck.lean ====
section
/-! DEFINITION. The schema's lookup (spec R106) and its well-formedness checks (spec 30_encoding.md R64, refused as 60_exceptions.md R131 code 1). -/

namespace Sys2Proof

/-- `Schema(reg)` (R16, R106): the field list, or `none` for ABSENT. -/
def Schema.lookup (sch : Schema) (reg : RegId) : Option (List FieldDesc) :=
  List.lookup reg.toNat sch

/-- Two fields claim a common bit (R64 WF_DISJOINT). -/
def FieldDesc.overlaps (a b : FieldDesc) : Bool :=
  decide (max a.offset b.offset < min (a.offset + a.width) (b.offset + b.width))

/-- The transform is defined for every value a field of this width produces (R64 WF_TOTAL).
A formula is total (R109). -/
def Transform.totalOn (width : Nat) : Transform → Bool
  | .identity => true
  | .lut labels => decide (2 ^ width ≤ labels.length)
  | .formula _ => true

/-- The first field, in declaration order, for which `bad` holds of the fields before it and itself. -/
def firstBadField (bad : List FieldDesc → FieldDesc → Bool) :
    List FieldDesc → List FieldDesc → Nat → Option Nat
  | _, [], _ => none
  | before, d :: rest, k =>
    if bad before d then some k else firstBadField bad (before ++ [d]) rest (k + 1)

/-- The first entry with a field for which `bad` holds, as a refusal of this check. -/
def Schema.fieldProblem (check : SchemaCheck) (bad : List FieldDesc → FieldDesc → Bool) :
    Schema → Option Machine.Refusal
  | [] => none
  | (reg, fs) :: rest =>
    match firstBadField bad [] fs 0 with
    | some k => some (.schema check reg (some k))
    | none => Schema.fieldProblem check bad rest

/-- The first entry that fails `bad` as a whole, as a refusal of this check. -/
def Schema.entryProblem (check : SchemaCheck) (bad : Nat → List FieldDesc → Bool) :
    Schema → Option Machine.Refusal
  | [] => none
  | (reg, fs) :: rest =>
    if bad reg fs then some (.schema check reg none) else Schema.entryProblem check bad rest

/-- R64 `WF_IDS`: every id of the domain is in 0..15. -/
def Schema.idsProblem (sch : Schema) : Option Machine.Refusal :=
  Schema.entryProblem .wfIds (fun reg _ => decide (15 < reg)) sch

/-- R64 `WF_WIDTH`: every field has `width >= 1`. -/
def Schema.widthProblem (sch : Schema) : Option Machine.Refusal :=
  Schema.fieldProblem .wfWidth (fun _ d => d.width == 0) sch

/-- R64 `WF_RANGE`: every field has `offset + width <= 32`. -/
def Schema.rangeProblem (sch : Schema) : Option Machine.Refusal :=
  Schema.fieldProblem .wfRange (fun _ d => decide (32 < d.offset + d.width)) sch

/-- R64 `WF_TOTAL`: every transform is defined for every value `0 .. 2^width - 1`. -/
def Schema.totalProblem (sch : Schema) : Option Machine.Refusal :=
  Schema.fieldProblem .wfTotal (fun _ d => !d.xform.totalOn d.width) sch

/-- R64 `WF_DISJOINT`: the fields of one register occupy pairwise disjoint bit ranges. The field
recorded is the later one of the pair. -/
def Schema.disjointProblem (sch : Schema) : Option Machine.Refusal :=
  Schema.fieldProblem .wfDisjoint (fun before d => before.any (·.overlaps d)) sch

/-- R64 `WF_COUNT`: no register has more than MAX_FIELDS fields. -/
def Schema.countProblem (maxFields : Nat) (sch : Schema) : Option Machine.Refusal :=
  Schema.entryProblem .wfCount (fun _ fs => decide (maxFields < fs.length)) sch

/-- The first check of R64 the configuration fails, in R64's order (log 11), after R11's bound on
MAX_FIELDS (log 12); `none` when the block can be started (R154). -/
def Config.problem (cfg : Config) : Option Machine.Refusal :=
  if cfg.maxFields < 3 then some (.maxFields cfg.maxFields)
  else cfg.schema.idsProblem <|> cfg.schema.widthProblem <|> cfg.schema.rangeProblem <|>
    cfg.schema.totalProblem <|> cfg.schema.disjointProblem <|>
    cfg.schema.countProblem cfg.maxFields

/-- FIDX_W = ceil(log2(MAX_FIELDS)), at least 2 (R11): the least `w >= 2` with `MAX_FIELDS <= 2^w`,
searched upward from `w` with `fuel` tries. -/
def fidxWidthFrom (maxFields : Nat) : Nat → Nat → Nat
  | 0, w => w
  | fuel + 1, w => if maxFields ≤ 2 ^ w then w else fidxWidthFrom maxFields fuel (w + 1)

/-- FIDX_W of a configuration (R11). -/
def Config.fidxW (cfg : Config) : Nat :=
  fidxWidthFrom cfg.maxFields cfg.maxFields 2

end Sys2Proof
end

