-- ==== Sys2Proof/Machine/Flags.lean ====
section
/-! DEFINITION. The two predicates of spec 10_state.md R29. They are computed by the flush and stored nowhere; the block has no flags. -/

namespace Sys2Proof.Machine

/-- `LEN_OK = (cnt = 32)` (R29, R101). -/
def lenOk (s : State) : Bool :=
  s.cnt == 32

/-- `REG_KNOWN = (Schema(reg) ≠ ABSENT)` (R29, R106). -/
def regKnown (sch : Schema) (reg : RegId) : Bool :=
  (sch.lookup reg).isSome

/-- The fields of `Schema(reg)` in declaration order; ABSENT has none (R106, R160). -/
def fieldList (sch : Schema) (reg : RegId) : List FieldDesc :=
  (sch.lookup reg).getD []

end Sys2Proof.Machine
end

