-- ==== Sys2Proof/WellFormed.lean ====
section
/-! DEFINITION. Which events an event word of the configured POS_W can carry (spec 30_encoding.md R56). The checks on a schema (R64) stand in Machine/SchemaCheck.lean. -/

namespace Sys2Proof

/-- `s` fits its field `EV[POS_W+2:3]` (R56). -/
def Instr.startFits (posW : Nat) : Instr → Bool
  | .bit _ s _ => fitsBits posW s
  | .cs0 => true
  | .cs1 => true
  | .evk2 => true
  | .evk3 => true

/-- `e` fits its field `EV[2*POS_W+2:POS_W+3]` (R56). -/
def Instr.endFits (posW : Nat) : Instr → Bool
  | .bit _ _ e => fitsBits posW e
  | .cs0 => true
  | .cs1 => true
  | .evk2 => true
  | .evk3 => true

/-- The event has an event word at width POS_W: every operand fits its field. -/
def Instr.wf (posW : Nat) (i : Instr) : Bool :=
  i.startFits posW && i.endFits posW

end Sys2Proof
end

