-- ==== Sys2Proof/Decode.lean ====
section
/-! DEFINITION. The event word (spec 30_encoding.md R56 to R59, R67, R68): decoder, and after it the encoder. -/

namespace Sys2Proof

/-- `v[lo+width-1:lo]` of R14. -/
def bitField (lo width v : Nat) : Nat :=
  v / 2 ^ lo % 2 ^ width

/-- EW, the number of bits of an event word (R56). -/
def eventWidth (posW : Nat) : Nat :=
  3 + 2 * posW

/-- The event decoder of R57, total as R59 says: no word is illegal (R67), so there is no rejection
to name. It reads `EV[EW-1:0]` and no bit above (log 13). -/
def decode (posW ev : Nat) : Instr :=
  match bitField 0 2 ev with
  | 0 => .bit (ev.testBit 2) (bitField 3 posW ev) (bitField (posW + 3) posW ev)
  | 1 => if ev.testBit 2 then .cs1 else .cs0
  | 2 => .evk2
  | _ => .evk3

/-- The event word of an event (R56). Bits the form does not use (R58) are written 0. -/
def encode (posW : Nat) : Instr → Nat
  | .bit v s e => v.toNat * 4 + s * 8 + e * 2 ^ (posW + 3)
  | .cs0 => 1
  | .cs1 => 5
  | .evk2 => 2
  | .evk3 => 3

/-- The event an opcode-table word stands for. The table gives the low bits of an event word; the
width of a position is that of the reset configuration (log 19). -/
def decodeTableWord (nbits w : Nat) : Option Instr :=
  some (decode Config.testBench.posW (w % 2 ^ nbits))

end Sys2Proof
end

