-- ==== Sys2Proof/Machine/Ops.lean ====
section
/-! DEFINITION. The named operations over the shift register, the count, the control state and the output (spec 00_scope.md R15, R16; 40_accumulator.md R81, R83; 70_reset_and_hazards.md R151). The block takes no exception (60_exceptions.md R130, R135, R136): `raise` ends a step in a model fault (R131). -/

namespace Sys2Proof.Machine

/-- A step that computed a state goes there; one that raised a fault stops with it, and nothing of
the step is kept (R131: all or nothing). -/
def raise : Except Fault State → Host.Outcome State Fault Refusal
  | .ok s => .next s
  | .error f => .fault f

/-- Read slot `j` of the three files at once (R15); a slot that holds `⊥` raises FaultUnwritten (R23). -/
def State.readSlot (s : State) (j : Nat) : Except Fault Bit :=
  match s.slots[j]? with
  | some (some b) => .ok b
  | some none => .error (.unwritten j)
  | none => .error (.unwritten j)

/-- `sr_val[j]` (R15, R21). -/
def State.srVal (s : State) (j : Nat) : Except Fault Bool :=
  (s.readSlot j).map Bit.value

/-- `sr_start[j]` (R15, R22). -/
def State.srStart (s : State) (j : Nat) : Except Fault Nat :=
  (s.readSlot j).map Bit.startPos

/-- `sr_end[j]` (R15, R22). -/
def State.srEnd (s : State) (j : Nat) : Except Fault Nat :=
  (s.readSlot j).map Bit.endPos

/-- The slots after a shift toward slot 31 (R81): `b` is prepended, every held cell, `⊥` too, moves up
one slot, and the old slot 31 is lost. -/
def shiftedSlots (slots : Vector (Option Bit) 32) (b : Bit) : Vector (Option Bit) 32 :=
  (#v[some b] ++ slots).pop

/-- The count after one more bit: `min(cnt + 1, 33)` (R81, R82). -/
def countUp (cnt : BitVec 6) : BitVec 6 :=
  BitVec.ofNat 6 (min (cnt.toNat + 1) 33)

/-- SHIFT_IN(b) (R81). -/
def State.shiftIn (s : State) (b : Bit) : State :=
  { s with slots := shiftedSlots s.slots b, cnt := countUp s.cnt }

/-- CLEAR (R83). -/
def State.clear (s : State) : State :=
  { s with slots := Vector.replicate 32 none, cnt := 0 }

/-- `Emit` of a list of emissions, in order (R16). -/
def State.emit (s : State) (es : List Emission) : State :=
  { s with out := s.out ++ es }

/-- `fsm <- ACCUMULATING`; the flush registers hold `⊥` from here on (R26, R28). -/
def State.toAccumulating (s : State) : State :=
  { s with fsm := .accumulating, fl := none }

/-- The end of every `CS 1` (R113): `CLEAR(); fsm <- ACCUMULATING`. -/
def State.endFrame (s : State) : State :=
  s.clear.toAccumulating

/-- Hardware reset (R151): the block's registers become those of `s0`. The configuration is not
state, what is still to be delivered is the upstream's, and records delivered stand (R152). -/
def State.hardReset (s : State) : State :=
  { State.resetWith s.cfg with inputs := s.inputs, out := s.out }

/-- `min(cnt, 32)`: how many slots hold a Bit (R23, R85). -/
def State.filled (s : State) : Nat :=
  min s.cnt.toNat 32

end Sys2Proof.Machine
end

