-- ==== Sys2Proof/Machine/Operands.lean ====
section
/-! DEFINITION. The field-extraction mux, spans and labels (spec 30_encoding.md R65, R66; 40_accumulator.md R84, R85; 41_frame_decoder.md R104, R105, R108 to R112). -/

namespace Sys2Proof.Machine

/-- SEL_OFFSET and SEL_WIDTH (R7). -/
def selOffset : Nat := 0
/-- SEL_WIDTH (R7). -/
def selWidth : Nat := 4

/-- `Σ_{i=0}^{width-1} sr_val[offset+i] * 2^i` (R84), reading the slots upward from `offset`. -/
def State.placeValue (s : State) : (offset width : Nat) → Except Fault Nat
  | _, 0 => .ok 0
  | offset, width + 1 => do
    let b ← s.srVal offset
    let rest ← State.placeValue s (offset + 1) width
    .ok (b.toNat + 2 * rest)

/-- The frame word `W = Σ sr_val[j] * 2^j` (R42). -/
def State.frameWord (s : State) : Except Fault Word32 := do
  let v ← s.placeValue 0 32
  .ok (BitVec.ofNat 32 v)

/-- `Span(offset, width)` (R105). -/
def State.span (s : State) (offset width : Nat) : Except Fault (Nat × Nat) :=
  match s.cfg.spanMode with
  | .doc => do
    let a ← s.srStart offset
    let b ← s.srEnd (offset + width - 1)
    .ok (a, b)
  | .temporal => do
    let a ← s.srStart (offset + width - 1)
    let b ← s.srEnd offset
    .ok (a, b)

/-- EXTRACT's precondition (R85). -/
def State.canExtract (s : State) (offset width : Nat) : Bool :=
  decide (1 ≤ width) && decide (offset + width ≤ s.filled)

/-- EXTRACT(offset, width) (R84): the precondition is tested before any slot is read (R134). -/
def State.extract (s : State) (offset width : Nat) : Except Fault Extracted :=
  if s.canExtract offset width then do
    let v ← s.placeValue offset width
    let sp ← s.span offset width
    .ok ⟨BitVec.ofNat 32 v, sp.1, sp.2⟩
  else .error (.extract offset width s.cnt.toNat)

/-- The base-10 digits of `n` before `acc`, most significant first; `fuel > n` is enough. -/
def decDigits : Nat → Nat → List Char → List Char
  | 0, _, acc => acc
  | fuel + 1, n, acc =>
    if n < 10 then Char.ofNat (48 + n) :: acc
    else decDigits fuel (n / 10) (Char.ofNat (48 + n % 10) :: acc)

/-- `dec(n)` (R108). -/
def dec (n : Nat) : String :=
  String.ofList (decDigits (n + 1) n [])

/-- `render(xform, value)` for field `fidx` of register `reg` (R109); a value outside a table raises
FaultDomain (R131). -/
def render (reg : RegId) (fidx : Nat) (xform : Transform) (value : Word32) : Except Fault String :=
  match xform with
  | .identity => .ok (dec value.toNat)
  | .lut labels =>
    match labels[value.toNat]? with
    | some l => .ok l
    | none => .error (.domain reg fidx value)
  | .formula k => .ok (Config.formula k value.toNat)

/-- The SEL record and its label (R104, R110). -/
def selEmission (reg : RegId) (startPos endPos : Nat) : Emission :=
  { record := { akind := .sel, reg := reg, fidx := 0, value := reg.setWidth 32,
                startPos := startPos, endPos := endPos }
    label := "Register: " ++ dec reg.toNat }

/-- The FIELD record of field `fidx` and its label (R107, R111). -/
def fieldEmission (reg : RegId) (fidx : Nat) (d : FieldDesc) (x : Extracted) :
    Except Fault Emission := do
  let l ← render reg fidx d.xform x.value
  .ok { record := { akind := .field, reg := reg, fidx := fidx, value := x.value,
                    startPos := x.startPos, endPos := x.endPos }
        label := d.name ++ ": " ++ l }

/-- The document's emission for a record (R112). -/
def Emission.document (sch : Schema) (e : Emission) : DocEmission :=
  { startPos := e.record.startPos
    endPos := e.record.endPos
    category := "register write"
    labels := [e.label, Config.abbreviated e.record sch, Config.terse e.record sch] }

/-- The document's view of the observed output stream (R16, R112). -/
def State.documentStream (s : State) : List DocEmission :=
  s.out.map (Emission.document s.cfg.schema)

end Sys2Proof.Machine
end

