-- ==== Sys2Proof/Machine/Accumulator.lean ====
section
/-! DEFINITION. The accumulation family (spec 40_accumulator.md R86 to R89): BIT, CS 0, EVK 2, EVK 3. -/

namespace Sys2Proof.Machine

/-- `BIT v, s, e` (R86): `SHIFT_IN((v, s, e))`, whatever the chip-select level (R87). -/
def execBit (v : Bool) (a b : Nat) (s : State) : Host.Outcome State Fault Refusal :=
  .next (s.shiftIn ⟨v, a, b⟩)

/-- `CS 0` (R88): the state and the output are unchanged. -/
def execCs0 (s : State) : Host.Outcome State Fault Refusal :=
  .next s

/-- `EVK 2` (R89): the state and the output are unchanged. -/
def execEvk2 (s : State) : Host.Outcome State Fault Refusal :=
  .next s

/-- `EVK 3` (R89): the state and the output are unchanged. -/
def execEvk3 (s : State) : Host.Outcome State Fault Refusal :=
  .next s

end Sys2Proof.Machine
end

