-- ==== Sys2Proof/Machine/AnnWord.lean ====
section
/-! DEFINITION. The annotation word of the output port (spec 30_encoding.md R62): encoder and decoder. -/

namespace Sys2Proof

/-- AW, the number of bits of an annotation word (R62). -/
def annWidth (posW fidxW : Nat) : Nat :=
  37 + fidxW + 2 * posW

/-- `akind` as a bit (R62). -/
def AnnKind.toBit : AnnKind → Nat
  | .sel => 0
  | .field => 1

/-- The annotation word of a record (R62), with `A = 5 + FIDX_W`. -/
def AnnRecord.toWord (posW fidxW : Nat) (r : AnnRecord) : Nat :=
  r.akind.toBit + r.reg.toNat * 2 + r.fidx * 2 ^ 5 + r.value.toNat * 2 ^ (5 + fidxW)
    + r.startPos * 2 ^ (5 + fidxW + 32) + r.endPos * 2 ^ (5 + fidxW + 32 + posW)

/-- The record an annotation word carries (R62). -/
def AnnRecord.ofWord (posW fidxW w : Nat) : AnnRecord :=
  { akind := if w.testBit 0 then .field else .sel
    reg := BitVec.ofNat 4 (bitField 1 4 w)
    fidx := bitField 5 fidxW w
    value := BitVec.ofNat 32 (bitField (5 + fidxW) 32 w)
    startPos := bitField (5 + fidxW + 32) posW w
    endPos := bitField (5 + fidxW + 32 + posW) posW w }

/-- The record fits the port: its index and its positions fit their fields (R62). -/
def AnnRecord.fits (posW fidxW : Nat) (r : AnnRecord) : Bool :=
  fitsBits fidxW r.fidx && fitsBits posW r.startPos && fitsBits posW r.endPos

end Sys2Proof
end

