-- ==== Sys2Proof/Machine/FrameDecoder.lean ====
section
/-! DEFINITION. The frame decoder family (spec 41_frame_decoder.md R100 to R116): CS 1. -/

namespace Sys2Proof.Machine

/-- The field loop (R107): one FIELD record for each field, in declaration order, from index `k` on. -/
def State.fieldEmissions (s : State) (reg : RegId) : Nat → List FieldDesc → Except Fault (List Emission)
  | _, [] => .ok []
  | k, d :: rest => do
    let x ← s.extract d.offset d.width
    let e ← fieldEmission reg k d x
    let es ← State.fieldEmissions s reg (k + 1) rest
    .ok (e :: es)

/-- The records of a decoded frame, in order (R100, R104, R106, R107): SEL, then the fields of a
known register. -/
def State.frameEmissions (s : State) : Except Fault (List Emission) := do
  let x ← s.extract selOffset selWidth
  let reg : RegId := x.value.setWidth 4
  let es ← if regKnown s.cfg.schema reg then s.fieldEmissions reg 0 (fieldList s.cfg.schema reg)
    else .ok []
  .ok (selEmission reg x.startPos x.endPos :: es)

/-- `CS 1` (R100): one atomic step. -/
def execCs1 (s : State) : Host.Outcome State Fault Refusal :=
  raise do
    let s1 : State := { s with fsm := .flushing }
    let es ← if lenOk s1 then s1.frameEmissions else .ok []
    .ok (s1.emit es).endFrame

end Sys2Proof.Machine
end

