-- ==== Sys2Proof/Machine/Cycle.lean ====
section
/-! DEFINITION. The cycle-level build (spec 10_state.md R28; 30_encoding.md R60, R61, R71; 70_reset_and_hazards.md R151, R152, R159, R160): the ports and one rising edge of `clk`, over the same State. -/

namespace Sys2Proof.Machine

/-- `in_ready` (R61): 1 exactly when `rst = 0` and `fsm = ACCUMULATING`. -/
def inReady (rst : Bool) (s : State) : Bool :=
  !rst && decide (s.fsm = .accumulating)

/-- `ann_valid` (R160): 1 exactly when `rst = 0` and `fsm = FLUSHING`. -/
def annValid (rst : Bool) (s : State) : Bool :=
  !rst && decide (s.fsm = .flushing)

/-- A field's value from the latched word and its span from the tags (R103, R105), under EXTRACT's
precondition (R85). -/
def State.extractLatched (s : State) (w : Word32) (offset width : Nat) : Except Fault Extracted :=
  if s.canExtract offset width then do
    let sp ← s.span offset width
    .ok ⟨BitVec.ofNat 32 (bitField offset width w.toNat), sp.1, sp.2⟩
  else .error (.extract offset width s.cnt.toNat)

/-- The record due while FLUSHING (R160): SEL in phase 0, the FIELD record of `fl_idx` in phase 1. -/
def State.dueEmission (s : State) (r : FlushRegs) : Except Fault Emission :=
  match r.phase with
  | .selector => do
    let x ← s.extractLatched r.word selOffset selWidth
    .ok (selEmission r.reg x.startPos x.endPos)
  | .fields =>
    match (fieldList s.cfg.schema r.reg)[r.idx]? with
    | none => .error .flushRegisters
    | some d => do
      let x ← s.extractLatched r.word d.offset d.width
      fieldEmission r.reg r.idx d x

/-- `ann_word` (R62, R160): the annotation word of the record due. -/
def annWord (s : State) : Except Fault Nat :=
  match s.fl with
  | none => .error .flushRegisters
  | some r => do
    let e ← s.dueEmission r
    .ok (e.record.toWord s.cfg.posW s.cfg.fidxW)

/-- The flush registers after the record due is delivered (R160); `none` when it was the last. -/
def FlushRegs.afterDelivery (sch : Schema) (r : FlushRegs) : Option FlushRegs :=
  match r.phase with
  | .selector =>
    if !regKnown sch r.reg || (fieldList sch r.reg).isEmpty then none
    else some { r with phase := .fields, idx := 0 }
  | .fields =>
    if r.idx = (fieldList sch r.reg).length - 1 then none
    else some { r with idx := r.idx + 1 }

/-- The FLUSHING edge with `ann_ready = 1` (R160): the record due is delivered, and the flush moves
on or ends. -/
def State.deliver (s : State) : Except Fault State :=
  match s.fl with
  | none => .error .flushRegisters
  | some r => do
    let e ← s.dueEmission r
    match r.afterDelivery s.cfg.schema with
    | none => .ok (s.emit [e]).endFrame
    | some r' => .ok { s.emit [e] with fl := some r' }

/-- The accepting edge of a decodable `CS 1` (R160): `fl_word <- W; fl_reg <- W[3:0]; fl_idx <- 0;
fl_phase <- 0; fsm <- FLUSHING`. -/
def State.startFlush (s : State) : Except Fault State := do
  let w ← s.frameWord
  .ok { s with fsm := .flushing, fl := some ⟨w, w.setWidth 4, 0, .selector⟩ }

/-- The accepting edge of an event (R160). -/
def acceptEvent (i : Instr) (s : State) : Host.Outcome State Fault Refusal :=
  match i with
  | .bit v a b => execBit v a b s
  | .cs0 => execCs0 s
  | .cs1 => if lenOk s then raise s.startFlush else .next s.clear
  | .evk2 => execEvk2 s
  | .evk3 => execEvk3 s

/-- One rising edge of `clk` (R160); reset wins over everything (R134, R151). -/
def clockEdge (p : Pins) (s : State) : Host.Outcome State Fault Refusal :=
  if p.rst then .next s.hardReset
  else
    match s.fsm with
    | .accumulating =>
      if p.inValid then acceptEvent (decode s.cfg.posW p.inWord) s else .next s
    | .flushing => if p.annReady then raise s.deliver else .next s

/-- The edges of a list, in order, up to the first fault. -/
def runEdges : List Pins → State → Host.Outcome State Fault Refusal
  | [], s => .next s
  | p :: ps, s =>
    match clockEdge p s with
    | .next t => runEdges ps t
    | .fault f => .fault f
    | .refused r => .refused r

end Sys2Proof.Machine
end

