-- ==== Sys2Proof/Machine/Dispatch.lean ====
section
/-! DEFINITION. One arm per event form (spec 30_encoding.md R55). -/

namespace Sys2Proof.Machine

def exec (i : Instr) (s : State) : Host.Outcome State Fault Refusal :=
  match i with
  -- accumulation family, spec 40_accumulator.md and the end of frame, spec 41_frame_decoder.md
  | .bit v a b => Sys2Proof.Machine.execBit v a b s
  | .cs0 => Sys2Proof.Machine.execCs0 s
  | .cs1 => Sys2Proof.Machine.execCs1 s
  | .evk2 => Sys2Proof.Machine.execEvk2 s
  | .evk3 => Sys2Proof.Machine.execEvk3 s

end Sys2Proof.Machine
end

