-- ==== Sys2Proof/Machine/Fetch.lean ====
section
/-! DEFINITION. Which input the next step takes (spec 30_encoding.md R57, R61). -/

namespace Sys2Proof.Machine

/-- What the next step does. -/
inductive Fetched where
  /-- Perform this event, in this state. -/
  | event (i : Instr) (s : State)
  /-- Take this edge, in this state. -/
  | edge (p : Pins) (s : State)
  /-- Hold the state. -/
  | hold
deriving DecidableEq, Repr

/-- The next input and the state with that input taken. An event while `in_ready = 0` is neither lost
nor performed (R61): it stays where it is and the step holds. -/
def State.fetch (s : State) : Fetched :=
  match s.inputs with
  | [] => .hold
  | .event ev :: rest =>
    if inReady false s then .event (decode s.cfg.posW ev) { s with inputs := rest } else .hold
  | .edge p :: rest => .edge p { s with inputs := rest }

end Sys2Proof.Machine
end

