-- ==== Sys2Proof/Machine/Step.lean ====
section
/-! DEFINITION. One step of the machine (spec 00_scope.md R16), runs of events, and the placing of an opcode-table word where the next step takes it. -/

namespace Sys2Proof.Machine

/-- One step: a configuration that fails its checks starts no run (R131, R154); otherwise the next
input is taken. An event is accepted while ACCUMULATING (R61) and then performed whole (R46), an
event that is not accepted waits (log 15), an edge is one rising edge of `clk` (R160), and with no
input the block holds its state (R142). -/
def step (s : State) : Host.Outcome State Fault Refusal :=
  match s.cfg.problem with
  | some r => .refused r
  | none =>
    match s.fetch with
    | .event i t => exec i t
    | .edge p t => clockEdge p t
    | .hold => .next s

/-- The events of a list, in order, up to the first fault. -/
def runEvents : List Instr → State → Host.Outcome State Fault Refusal
  | [], s => .next s
  | i :: is, s =>
    match exec i s with
    | .next t => runEvents is t
    | .fault f => .fault f
    | .refused r => .refused r

/-- `s` with the event word `w` as its next input, in a state that accepts it (log 18). -/
def State.withFetchWord (s : State) (nbits w : Nat) : State :=
  { s.toAccumulating with inputs := .event (w % 2 ^ nbits) :: s.inputs }

end Sys2Proof.Machine
end

