-- ==== Sys2Proof/Machine/Asm.lean ====
section
/-! DEFINITION. The textual form of event streams (spec 30_encoding.md R69) and its pseudo-instructions (R70). -/

namespace Sys2Proof.Machine

/-- `WORD32 W, p0` (R70): most-significant bit first, arrival `k` at positions `p0+2k` to `p0+2k+1`. -/
def asmWord32 (w : Word32) (p0 : Nat) : List Instr :=
  (List.range 32).map fun k => .bit (w.getLsbD (31 - k)) (p0 + 2 * k) (p0 + 2 * k + 1)

/-- `FRAME W, p0` (R70). -/
def asmFrame (w : Word32) (p0 : Nat) : List Instr :=
  .cs0 :: asmWord32 w p0 ++ [.cs1]

/-- `BITS n, v, p0` (R70). -/
def asmBits (n : Nat) (v : Bool) (p0 : Nat) : List Instr :=
  (List.range n).map fun k => .bit v (p0 + 2 * k) (p0 + 2 * k + 1)

/-- The line of one event (R69), numbers in decimal. -/
def eventText : Instr → String
  | .bit v s e => "BIT " ++ dec v.toNat ++ ", " ++ dec s ++ ", " ++ dec e
  | .cs0 => "CS 0"
  | .cs1 => "CS 1"
  | .evk2 => "EVK 2"
  | .evk3 => "EVK 3"

/-- The pieces of a text between the separators `c`. -/
def splitChars (c : Char) : List Char → List (List Char)
  | [] => [[]]
  | x :: xs =>
    if x = c then [] :: splitChars c xs
    else
      match splitChars c xs with
      | [] => [[x]]
      | piece :: rest => (x :: piece) :: rest

/-- A text without the spaces at its two ends. -/
def trimSpaces (cs : List Char) : List Char :=
  ((cs.dropWhile (· == ' ')).reverse.dropWhile (· == ' ')).reverse

/-- The value of a digit in base 16; a base-10 digit is one below 10. -/
def digitValue (c : Char) : Option Nat :=
  let n := c.toNat
  if 48 ≤ n ∧ n ≤ 57 then some (n - 48)
  else if 97 ≤ n ∧ n ≤ 102 then some (n - 87)
  else if 65 ≤ n ∧ n ≤ 70 then some (n - 55)
  else none

/-- The number a list of digits of a base stands for, after the digits read into `acc`. -/
def readDigits (base : Nat) : List Char → Nat → Option Nat
  | [], acc => some acc
  | c :: cs, acc =>
    match digitValue c with
    | some d => if d < base then readDigits base cs (acc * base + d) else none
    | none => none

/-- A number of R69: decimal, or hexadecimal with the prefix `0x`. -/
def readNumber (cs : List Char) : Option Nat :=
  match cs with
  | [] => none
  | '0' :: 'x' :: [] => none
  | '0' :: 'x' :: d :: ds => readDigits 16 (d :: ds) 0
  | d :: ds => readDigits 10 (d :: ds) 0

/-- The events of a line: the name before the first space, the numbers after it split at commas. -/
def readEvent (name : String) (args : List Nat) : Option (List Instr) :=
  match args with
  | [n] =>
    if name = "CS" then
      if n = 0 then some [.cs0] else if n = 1 then some [.cs1] else none
    else if name = "EVK" then
      if n = 2 then some [.evk2] else if n = 3 then some [.evk3] else none
    else none
  | [w, p0] =>
    if w < 2 ^ 32 then
      if name = "WORD32" then some (asmWord32 (BitVec.ofNat 32 w) p0)
      else if name = "FRAME" then some (asmFrame (BitVec.ofNat 32 w) p0)
      else none
    else none
  | [a, b, c] =>
    if name = "BIT" then
      if a < 2 then some [.bit (a == 1) b c] else none
    else if name = "BITS" then
      if b < 2 then some (asmBits a (b == 1) c) else none
    else none
  | _ => none

/-- A list whose every entry is there, or nothing. -/
def allSome {α : Type} : List (Option α) → Option (List α)
  | [] => some []
  | x :: xs => do
    let a ← x
    let as ← allSome xs
    some (a :: as)

/-- One line of R69: an event, a pseudo-instruction, or nothing but a comment, which `;` starts. -/
def readLine (line : String) : Option (List Instr) :=
  let body := trimSpaces (line.toList.takeWhile (· != ';'))
  if body = [] then some []
  else do
    let args ← allSome ((splitChars ',' (body.dropWhile (· != ' '))).map fun a => readNumber (trimSpaces a))
    readEvent (String.ofList (body.takeWhile (· != ' '))) args

/-- A text of lines (R69), as the events it lists. -/
def readLines : List String → Option (List Instr)
  | [] => some []
  | l :: ls => do
    let a ← readLine l
    let b ← readLines ls
    some (a ++ b)

end Sys2Proof.Machine
end

