-- ==== Sys2Proof/Machine/Document.lean ====
section
/-! DEFINITION. The document's own decoder, with its unbounded frame buffer (spec 10_state.md R25; the quotations of R81 to R86, R100 to R113): the machine the block is compared with. -/

namespace Sys2Proof.Machine

/-- The document's Frame Buffer, "ordered from most-recently-received to earliest-received" (R21),
and what it has emitted. -/
structure DocState where
  buffer : List Bit
  out    : List Emission
deriving DecidableEq, Repr

/-- The unsigned integer of bits listed from the least-significant one on (R42, R84). -/
def bitsValue : List Bit → Nat
  | [] => 0
  | b :: bs => b.value.toNat + 2 * bitsValue bs

/-- `extract_unsigned(offset, width)` (R84, R85): `none` is the document's programming error. -/
def docExtract (mode : SpanMode) (buffer : List Bit) (offset width : Nat) : Option Extracted :=
  if 1 ≤ width ∧ offset + width ≤ buffer.length then do
    let low ← buffer[offset]?
    let high ← buffer[offset + width - 1]?
    let value := BitVec.ofNat 32 (bitsValue ((buffer.drop offset).take width))
    match mode with
    | .doc => some ⟨value, low.startPos, high.endPos⟩
    | .temporal => some ⟨value, high.startPos, low.endPos⟩
  else none

/-- "for each Field Descriptor ..., in field-declaration order" (R106, R107). -/
def docFields (mode : SpanMode) (buffer : List Bit) (reg : RegId) :
    Nat → List FieldDesc → Option (List Emission)
  | _, [] => some []
  | k, d :: rest => do
    let x ← docExtract mode buffer d.offset d.width
    let e ← (fieldEmission reg k d x).toOption
    let es ← docFields mode buffer reg (k + 1) rest
    some (e :: es)

/-- The emissions of a buffer of exactly 32 bits (R101, R104, R106). -/
def docFrame (cfg : Config) (buffer : List Bit) : Option (List Emission) := do
  let x ← docExtract cfg.spanMode buffer 0 4
  let reg : RegId := x.value.setWidth 4
  match cfg.schema.lookup reg with
  | none => some [selEmission reg x.startPos x.endPos]
  | some fs => do
    let es ← docFields cfg.spanMode buffer reg 0 fs
    some (selEmission reg x.startPos x.endPos :: es)

/-- One event of the document's decoder: `on_bit` prepends (R81, R86), a deassertion decodes a buffer
of exactly 32 bits and resets unconditionally (R100 to R102, R113), every other event is ignored. -/
def docStep (cfg : Config) (i : Instr) (d : DocState) : Option DocState :=
  match i with
  | .bit v s e => some { d with buffer := ⟨v, s, e⟩ :: d.buffer }
  | .cs0 => some d
  | .evk2 => some d
  | .evk3 => some d
  | .cs1 =>
    if d.buffer.length = 32 then do
      let es ← docFrame cfg d.buffer
      some { buffer := [], out := d.out ++ es }
    else some { d with buffer := [] }

/-- The events of a list, in order. -/
def docRun (cfg : Config) : List Instr → DocState → Option DocState
  | [], d => some d
  | i :: is, d => do
    let d' ← docStep cfg i d
    docRun cfg is d'

end Sys2Proof.Machine
end

