-- ==== Sys2Proof/Machine/Reference.lean ====
section
/-! DEFINITION. The facts the document fixes about the reference device's schema (spec 41_frame_decoder.md R117, R118). A predicate on schemas; the machine runs with any well-formed schema (R10). -/

namespace Sys2Proof

/-- The text a field shows for a value, where its transform covers that value (R109). -/
def FieldDesc.labelOf (d : FieldDesc) (v : Nat) : Option String :=
  (Machine.render 0 0 d.xform (BitVec.ofNat 32 v)).toOption

/-- R117 and R118 on a schema: ids 0 to 12 present and no other; 5, 8, 11 empty; register 0 exactly
INT, Prescaler, AutoCal; register 6 holds RF Output Power; the labels the document gives. -/
structure Schema.IsReference (sch : Schema) : Prop where
  domain : ∀ reg : RegId, (sch.lookup reg).isSome = decide (reg.toNat ≤ 12)
  reserved : ∀ reg : RegId, reg.toNat = 5 ∨ reg.toNat = 8 ∨ reg.toNat = 11 → sch.lookup reg = some []
  register0 : ∃ int pre cal, sch.lookup 0 = some [int, pre, cal] ∧
    int.name = "INT" ∧ int.xform = .identity ∧ 7 ≤ int.width ∧
    pre.name = "Prescaler" ∧ pre.labelOf 1 = some "8/9" ∧
    cal.name = "AutoCal" ∧ cal.labelOf 1 = some "Enabled"
  register6 : ∃ fs, sch.lookup 6 = some fs ∧ ∃ d ∈ fs, d.name = "RF Output Power" ∧ d.width = 2 ∧
    d.labelOf 0 = some "-4dBm" ∧ d.labelOf 1 = some "-1dBm" ∧
    d.labelOf 2 = some "+2dBm" ∧ d.labelOf 3 = some "+5dBm"

end Sys2Proof
end

