-- ==== Sys2Proof/Safety.lean ====
section
/-! DEFINITION. What a state the block reaches looks like, what a safe outcome is, and how the block stands for the document's decoder (spec 10_state.md R23 to R28). -/

namespace Sys2Proof.Machine

/-- R24: the count values 34 to 63 never occur. -/
def State.CntOk (s : State) : Prop :=
  s.cnt.toNat ≤ 33

/-- R23: slot `j` holds a Bit exactly when `j < min(cnt, 32)`. -/
def State.SlotsOk (s : State) : Prop :=
  ∀ j : Fin 32, s.slots[j].isSome = decide (j.val < s.filled)

/-- Every position held fits POS_W bits (R9, R22). -/
def State.TagsFit (s : State) : Prop :=
  ∀ j : Fin 32, ∀ b : Bit, s.slots[j] = some b →
    fitsBits s.cfg.posW b.startPos = true ∧ fitsBits s.cfg.posW b.endPos = true

/-- R28: the flush registers hold values exactly while FLUSHING, namely those of the frame being
flushed and of the record due. -/
def State.FlushOk (s : State) : Prop :=
  match s.fsm, s.fl with
  | .accumulating, none => True
  | .flushing, some r =>
    s.cnt = 32 ∧ s.frameWord = .ok r.word ∧ r.reg = r.word.setWidth 4 ∧
      match r.phase with
      | .selector => r.idx = 0
      | .fields => r.idx < (fieldList s.cfg.schema r.reg).length
  | _, _ => False

/-- The invariant of the block. -/
structure State.Inv (s : State) : Prop where
  cntOk   : s.CntOk
  slotsOk : s.SlotsOk
  tagsFit : s.TagsFit
  flushOk : s.FlushOk

/-- The block can be started with this configuration (R154). -/
def Startable (cfg : Config) : Prop :=
  cfg.problem = none

/-- What each check of R64 asks of an entry `(reg, fs)` of the schema; the WF_DISJOINT clause says
that no bit lies in two fields. -/
def EntryMeets (maxFields : Nat) (reg : Nat) (fs : List FieldDesc) : SchemaCheck → Prop
  | .wfIds => reg ≤ 15
  | .wfWidth => ∀ d ∈ fs, 1 ≤ d.width
  | .wfRange => ∀ d ∈ fs, d.offset + d.width ≤ 32
  | .wfTotal => ∀ d ∈ fs, ∀ labels, d.xform = .lut labels → 2 ^ d.width ≤ labels.length
  | .wfDisjoint => fs.Pairwise fun a b => ∀ i, ¬ (a.offset ≤ i ∧ i < a.offset + a.width ∧
      b.offset ≤ i ∧ i < b.offset + b.width)
  | .wfCount => fs.length ≤ maxFields

/-- A field that itself fails a check of R64, `before` being the fields declared before it. WF_IDS and
WF_COUNT are about an entry as a whole, so no field fails them. -/
def FieldFails (before : List FieldDesc) (d : FieldDesc) : SchemaCheck → Prop
  | .wfIds => False
  | .wfWidth => d.width = 0
  | .wfRange => 32 < d.offset + d.width
  | .wfTotal => ∃ labels, d.xform = .lut labels ∧ labels.length < 2 ^ d.width
  | .wfDisjoint => ∃ a ∈ before, ∃ i, (a.offset ≤ i ∧ i < a.offset + a.width) ∧
      d.offset ≤ i ∧ i < d.offset + d.width
  | .wfCount => False

/-- R64: every entry of the schema passes every named check. -/
def SchemaWellFormed (cfg : Config) : Prop :=
  ∀ check, ∀ p ∈ cfg.schema, EntryMeets cfg.maxFields p.1 p.2 check

/-- All 32 slots hold a Bit (R23). -/
def State.Full (s : State) : Prop :=
  ∀ j : Fin 32, s.slots[j].isSome = true

/-- The bit in slot `j` of a state, 0 where there is none: a total view for statements. -/
def State.bitAt (s : State) (j : Nat) : Bool :=
  match s.slots[j]? with
  | some (some b) => b.value
  | some none => false
  | none => false

/-- The start tag in slot `j`, 0 where there is none: a total view for statements. -/
def State.startAt (s : State) (j : Nat) : Nat :=
  match s.slots[j]? with
  | some (some b) => b.startPos
  | some none => 0
  | none => 0

/-- The end tag in slot `j`, 0 where there is none: a total view for statements. -/
def State.endAt (s : State) (j : Nat) : Nat :=
  match s.slots[j]? with
  | some (some b) => b.endPos
  | some none => 0
  | none => 0

/-- The start of the span R105 gives a field. -/
def State.spanStart (s : State) (offset width : Nat) : Nat :=
  match s.cfg.spanMode with
  | .doc => s.startAt offset
  | .temporal => s.startAt (offset + width - 1)

/-- The end of the span R105 gives a field. -/
def State.spanEnd (s : State) (offset width : Nat) : Nat :=
  match s.cfg.spanMode with
  | .doc => s.endAt (offset + width - 1)
  | .temporal => s.endAt offset

/-- `W[offset+width-1:offset]`, zero-extended (R66). -/
def fieldOf (w : Word32) (offset width : Nat) : Word32 :=
  BitVec.ofNat 32 (w.toNat / 2 ^ offset % 2 ^ width)

/-- The text of a value under a transform (R109); outside a table, which no well-formed schema
reaches, the empty text. -/
def textOf (xform : Transform) (value : Word32) : String :=
  match xform with
  | .identity => dec value.toNat
  | .lut labels => labels.getD value.toNat ""
  | .formula k => Config.formula k value.toNat

/-- The SEL emission R104 and R110 give a frame word. -/
def selectorEmission (s : State) (w : Word32) : Emission :=
  { record := { akind := .sel, reg := w.setWidth 4, fidx := 0, value := (w.setWidth 4).setWidth 32,
                startPos := s.spanStart 0 4, endPos := s.spanEnd 0 4 }
    label := "Register: " ++ dec (w.setWidth 4).toNat }

/-- The FIELD emission R107 and R111 give field `k` of a frame word. -/
def fieldEmissionOf (s : State) (w : Word32) (k : Nat) (d : FieldDesc) : Emission :=
  { record := { akind := .field, reg := w.setWidth 4, fidx := k, value := fieldOf w d.offset d.width,
                startPos := s.spanStart d.offset d.width, endPos := s.spanEnd d.offset d.width }
    label := d.name ++ ": " ++ textOf d.xform (fieldOf w d.offset d.width) }

/-- Every emission of a decoded frame, in order (R119). -/
def frameEmissionsOf (s : State) (w : Word32) : List Emission :=
  selectorEmission s w ::
    (fieldList s.cfg.schema (w.setWidth 4)).mapIdx fun k d => fieldEmissionOf s w k d

/-- `w` is the frame word of R42: bit `j` of `w` is the value in slot `j`. -/
def State.HoldsWord (s : State) (w : Word32) : Prop :=
  ∀ j : Nat, j < 32 → w.getLsbD j = s.bitAt j

/-- A complete frame is waiting for its deassertion: 32 bits, every slot a Bit (R23, R101). -/
def State.FrameReady (s : State) : Prop :=
  s.cnt = 32 ∧ s.Full

/-- The state `s` with the registers of the block as R113 leaves them. -/
def State.cleared (s : State) : State :=
  { s with slots := Vector.replicate 32 none, cnt := 0, fsm := .accumulating, fl := none }

/-- The Bits of the BIT events of a list, in order of arrival. -/
def bitsOf : List Instr → List Bit
  | [] => []
  | .bit v a b :: is => ⟨v, a, b⟩ :: bitsOf is
  | .cs0 :: is => bitsOf is
  | .cs1 :: is => bitsOf is
  | .evk2 :: is => bitsOf is
  | .evk3 :: is => bitsOf is

/-- R25: the block's state after the same events as a document decoder in state `d`. -/
structure Represents (s : State) (d : DocState) : Prop where
  cnt   : s.cnt.toNat = min d.buffer.length 33
  slots : ∀ j : Fin 32, s.slots[j] = d.buffer[j.val]?
  fsm   : s.fsm = .accumulating
  fl    : s.fl = none
  out   : s.out = d.out

end Sys2Proof.Machine
end

