-- ==== Sys2Proof/Certificates/Slice0/Obligations.lean ====
section
/-! DEFINITION. The statements for the provers. Each cites the rules of spec/ it rests on; nothing is stated about one program. -/

open Sys2Proof Sys2Proof.Machine

/-! ### Encodings -/

/-- R56, R57: every event a word can carry has one, and its word decodes to it. -/
def Obligations.DecodeEncodeRoundTrip : Prop :=
  ∀ (posW : Nat) (i : Instr), i.wf posW = true →
    encode posW i < 2 ^ eventWidth posW ∧ decode posW (encode posW i) = i

/-- R57 to R59: every word decodes to an event whose operands fit, the encoder's word for that event
decodes to it too, and a BIT word (which has no ignored bit) is the only word of its event. -/
def Obligations.EncodeDecodeCanonical : Prop :=
  ∀ posW ev : Nat,
    (decode posW ev).wf posW = true ∧
    decode posW (encode posW (decode posW ev)) = decode posW ev ∧
    (ev % 4 = 0 → ev < 2 ^ eventWidth posW → encode posW (decode posW ev) = ev)

/-- R57: which form a word decodes to, with the fields of R56, and that the reserved kinds are no-ops. -/
def Obligations.EventWordForms : Prop :=
  ∀ posW ev : Nat,
    (ev % 4 = 0 → decode posW ev =
      .bit (ev.testBit 2) (ev / 2 ^ 3 % 2 ^ posW) (ev / 2 ^ (posW + 3) % 2 ^ posW)) ∧
    (ev % 4 = 1 → ev.testBit 2 = false → decode posW ev = .cs0) ∧
    (ev % 4 = 1 → ev.testBit 2 = true → decode posW ev = .cs1) ∧
    (ev % 4 = 2 → decode posW ev = .evk2) ∧
    (ev % 4 = 3 → decode posW ev = .evk3) ∧
    (2 ≤ ev % 4 → ∀ s : State, exec (decode posW ev) s = .next s)

/-- R58: two event words that differ only in ignored bits have the same effect. -/
def Obligations.IgnoredBitsHaveNoEffect : Prop :=
  ∀ (posW a b : Nat) (s : State),
    (a % 4 = 1 ∧ a % 8 = b % 8) ∨ (2 ≤ a % 4 ∧ a % 4 = b % 4) →
    exec (decode posW a) s = exec (decode posW b) s

/-- The words E.1 to E.11 of 95_test_vectors.md section 2.1, at POS_W = 16. -/
def Obligations.SpecWordsDecode : Prop :=
  decode 16 0x000000000 = .bit false 0 0 ∧ decode 16 0x000000004 = .bit true 0 0 ∧
  decode 16 0x7FFFFFFFC = .bit true 65535 65535 ∧ decode 16 0x000300028 = .bit false 5 6 ∧
  decode 16 0x000000001 = .cs0 ∧ decode 16 0x000000005 = .cs1 ∧
  decode 16 0x7FFFFFFFD = .cs1 ∧ decode 16 0x7FFFFFFF9 = .cs0 ∧
  decode 16 0x000000002 = .evk2 ∧ decode 16 0x7FFFFFFFE = .evk2 ∧ decode 16 0x000000003 = .evk3

/-- R62: a record that fits the port goes into a word of AW bits and comes back from it. -/
def Obligations.AnnWordRoundTrip : Prop :=
  ∀ (posW fidxW : Nat) (r : AnnRecord), r.fits posW fidxW = true →
    r.toWord posW fidxW < 2 ^ annWidth posW fidxW ∧
    AnnRecord.ofWord posW fidxW (r.toWord posW fidxW) = r

/-- R69: the line written for an event reads back as that event and nothing else. The reading of spaces
and numbers is the model's (log 24). -/
def Obligations.EventTextReadsBack : Prop :=
  ∀ i : Instr, readLine (eventText i) = some [i]

/-! ### The step -/

/-- R16, R46, R57, R61: with an event word as the next input, a step of a started block that is
ACCUMULATING is `exec` of the event the word decodes to, with that input taken. -/
def Obligations.StepRunsDecodedEvent : Prop :=
  ∀ (s : State) (ev : Nat) (rest : List Input),
    Startable s.cfg → s.fsm = .accumulating → s.inputs = .event ev :: rest →
    step s = exec (decode s.cfg.posW ev) { s with inputs := rest }

/-- R160: with an edge as the next input, a step of a started block is that edge. -/
def Obligations.StepTakesEdge : Prop :=
  ∀ (s : State) (p : Pins) (rest : List Input),
    Startable s.cfg → s.inputs = .edge p :: rest →
    step s = clockEdge p { s with inputs := rest }

/-- R142 and R61: with nothing to take the block holds its state, and an event that arrives while
FLUSHING is neither lost nor performed. -/
def Obligations.StepHoldsWithoutAcceptedInput : Prop :=
  ∀ s : State, Startable s.cfg →
    (s.inputs = [] → step s = .next s) ∧
    (∀ ev rest, s.inputs = .event ev :: rest → s.fsm = .flushing → step s = .next s)

/-- The word the host places is the next event performed (log 18): the step is `exec` of the event it
decodes to, in a state that accepts it. -/
def Obligations.PlacedWordRunsNext : Prop :=
  ∀ (s : State) (nbits w : Nat), Startable s.cfg →
    step (s.withFetchWord nbits w) =
      exec (decode s.cfg.posW (w % 2 ^ nbits)) { s with fsm := .accumulating, fl := none }

/-- R64, R131 code 1: with a legal MAX_FIELDS (R11), a step refuses exactly when the schema fails a
check. -/
def Obligations.SchemaChecksExact : Prop :=
  ∀ s : State, 3 ≤ s.cfg.maxFields → ((∃ r, step s = .refused r) ↔ ¬ SchemaWellFormed s.cfg)

/-- R131 code 1: a refusal records a check and an entry of the schema that fails it, and, for a check on
single fields, a field of that entry that itself fails it. WF_IDS and WF_COUNT, which are about a whole
entry, record no field; that, and naming the later field of an overlapping pair, is the model's choice
(log 11). A MAX_FIELDS below 3 (R11) is refused under its own name, the model's choice too (log 12). -/
def Obligations.RefusalNamesTheFailure : Prop :=
  ∀ s : State,
    (∀ (check : SchemaCheck) (reg : Nat) (field : Option Nat),
      step s = .refused (.schema check reg field) →
      ∃ fs, (reg, fs) ∈ s.cfg.schema ∧ ¬ EntryMeets s.cfg.maxFields reg fs check ∧
        ((check = .wfIds ∨ check = .wfCount) ∧ field = none ∨
          ∃ k d, field = some k ∧ fs[k]? = some d ∧ FieldFails (fs.take k) d check)) ∧
    (s.cfg.maxFields < 3 → step s = .refused (.maxFields s.cfg.maxFields))

/-- R33, R34, R47, R50: whatever the step, the configuration stays, the output only grows at its end,
and at most the next input is taken. -/
def Obligations.StepExtendsOutput : Prop :=
  ∀ s t : State, step s = .next t →
    t.cfg = s.cfg ∧ (∃ es, t.out = s.out ++ es) ∧ (t.inputs = s.inputs ∨ t.inputs = s.inputs.tail)

/-! ### Reset and the invariant -/

/-- R150: the reset state of any configuration; the model's `cfg`, `inputs` and `out` beside it. -/
def Obligations.ResetState : Prop :=
  ∀ cfg : Config,
    (State.resetWith cfg).cnt = 0 ∧ (State.resetWith cfg).fsm = .accumulating ∧
    (∀ j : Fin 32, (State.resetWith cfg).slots[j] = none) ∧ (State.resetWith cfg).fl = none ∧
    annValid false (State.resetWith cfg) = false

/-- R23, R24, R28, R150: the invariant holds at reset, whatever the configuration. -/
def Obligations.ResetMeetsInvariant : Prop :=
  State.reset.Inv ∧ ∀ cfg : Config, (State.resetWith cfg).Inv

/-- R23, R24, R26, R28: every step keeps the invariant, from every state that meets it. -/
def Obligations.StepKeepsInvariant : Prop :=
  ∀ s t : State, s.Inv → step s = .next t → t.Inv

/-- R130, R131: no input makes a started block stop: a step from a state that meets the invariant
answers a next state. -/
def Obligations.StepAlwaysGoes : Prop :=
  ∀ s : State, s.Inv → Startable s.cfg → ∃ t, step s = .next t

/-- R130: the same of a run of events. -/
def Obligations.EventsNeverStop : Prop :=
  ∀ (is : List Instr) (s : State), s.SlotsOk → Startable s.cfg → ∃ t, runEvents is s = .next t

/-! ### The accumulation family -/

/-- R81, R86: BIT shifts in at slot 0 and counts; it changes nothing else. -/
def Obligations.BitShiftsIn : Prop :=
  ∀ (v : Bool) (a b : Nat) (s : State), ∃ t, exec (.bit v a b) s = .next t ∧
    t.slots[0] = some ⟨v, a, b⟩ ∧
    (∀ (j : Nat) (h : j + 1 < 32), t.slots[j + 1] = s.slots[j]) ∧
    t.cnt.toNat = min (s.cnt.toNat + 1) 33 ∧
    t = { s with slots := t.slots, cnt := t.cnt }

/-- R82: the count goes from 32 to 33, stays at 33, and rises by one below 32. -/
def Obligations.CountSaturates : Prop :=
  ∀ (s : State) (b : Bit),
    (s.cnt = 32 → (s.shiftIn b).cnt = 33) ∧ (s.cnt = 33 → (s.shiftIn b).cnt = 33) ∧
    (s.cnt.toNat < 32 → (s.shiftIn b).cnt.toNat = s.cnt.toNat + 1)

/-- R88, R89: CS 0 and the reserved kinds leave the state and the output as they were. -/
def Obligations.IgnoredEventsChangeNothing : Prop :=
  ∀ s : State, exec .cs0 s = .next s ∧ exec .evk2 s = .next s ∧ exec .evk3 s = .next s ∧
    ∀ posW ev : Nat, ev % 8 = 1 ∨ ev % 4 = 2 ∨ ev % 4 = 3 → exec (decode posW ev) s = .next s

/-- R87, R122, R157: a run is the run of its BIT and CS 1 events alone, wherever CS 0 and reserved
events stand in it. -/
def Obligations.IgnoredEventsCanBeErased : Prop :=
  ∀ (is : List Instr) (s : State),
    runEvents is s = runEvents (is.filter fun i => i ≠ .cs0 ∧ i ≠ .evk2 ∧ i ≠ .evk3) s

/-- R90: after any events without CS 1, from a cleared block, the count is `min(n, 33)` and slot `j`
holds the `(j+1)`-th most recent Bit. -/
def Obligations.AccumulationLaw : Prop :=
  ∀ (is : List Instr) (s : State), .cs1 ∉ is → s.cnt = 0 → (∀ j : Fin 32, s.slots[j] = none) →
    ∃ t, runEvents is s = .next t ∧ t.cnt.toNat = min (bitsOf is).length 33 ∧
      (∀ j : Fin 32, t.slots[j] = (bitsOf is).reverse[j.val]?) ∧
      t = { s with slots := t.slots, cnt := t.cnt }

/-- R41, R42: 32 bits `b_1 .. b_32` in order of arrival, into a cleared block, give the frame word
whose bit `i` is `b_{32-i}`. -/
def Obligations.MostSignificantBitFirst : Prop :=
  ∀ (bs : List Bit) (s : State), bs.length = 32 → s.cnt = 0 →
    ∃ t w, runEvents (bs.map fun b => .bit b.value b.startPos b.endPos) s = .next t ∧
      t.FrameReady ∧ t.frameWord = .ok w ∧
      ∀ (i : Nat) (h : 31 - i < bs.length), i < 32 → w.getLsbD i = (bs[31 - i]).value

/-- R70 with R41: WORD32 W fills the block with the frame word W, arrival `k` at positions
`p0+2k` to `p0+2k+1`. -/
def Obligations.WordThirtyTwoFeedsItsWord : Prop :=
  ∀ (w : Word32) (p0 : Nat) (s : State), s.cnt = 0 →
    ∃ t, runEvents (asmWord32 w p0) s = .next t ∧ t.cnt = 32 ∧ t.frameWord = .ok w ∧
      ∀ j : Fin 32, t.slots[j] =
        some ⟨w.getLsbD j.val, p0 + 2 * (31 - j.val), p0 + 2 * (31 - j.val) + 1⟩

/-- R83: CLEAR empties the buffer, emits nothing, and a second CLEAR changes nothing. -/
def Obligations.ClearIsIdempotent : Prop :=
  ∀ s : State, s.clear.cnt = 0 ∧ (∀ j : Fin 32, s.clear.slots[j] = none) ∧
    s.clear.out = s.out ∧ s.clear.clear = s.clear

/-! ### EXTRACT, spans and labels -/

/-- R66, R84: on a complete frame EXTRACT gives the field of the frame word, which is the place-value sum
of its slots, and the span of R105. -/
def Obligations.ExtractReadsTheField : Prop :=
  ∀ (s : State) (w : Word32) (offset width : Nat), s.FrameReady → s.HoldsWord w →
    1 ≤ width → offset + width ≤ 32 →
    s.extract offset width =
      .ok ⟨fieldOf w offset width, s.spanStart offset width, s.spanEnd offset width⟩ ∧
    (fieldOf w offset width).toNat = ∑ i ∈ Finset.range width, (s.bitAt (offset + i)).toNat * 2 ^ i

/-- R42: the frame word of a complete frame is the place-value sum of its 32 slots, and so bit `j` of it
is the value in slot `j`. -/
def Obligations.FrameWordHoldsTheSlots : Prop :=
  ∀ s : State, s.Full → ∃ w, s.frameWord = .ok w ∧
    w.toNat = ∑ j ∈ Finset.range 32, (s.bitAt j).toNat * 2 ^ j ∧ s.HoldsWord w

/-- R120: the place-value sum is below `2^width`, so the 32-bit value is the sum itself. -/
def Obligations.ExtractedValueFits : Prop :=
  ∀ (s : State) (offset width : Nat) (x : Extracted), s.extract offset width = .ok x →
    s.placeValue offset width = .ok x.value.toNat ∧ x.value.toNat < 2 ^ width ∧ width ≤ 32

/-- R121: a field's value depends only on the bits of its range, and its span only on the tags of
slots `offset` and `offset+width-1`. -/
def Obligations.FieldsAreLocal : Prop :=
  ∀ (s t : State) (offset width : Nat), s.FrameReady → t.FrameReady →
    s.cfg.spanMode = t.cfg.spanMode → 1 ≤ width → offset + width ≤ 32 →
    (∀ j, offset ≤ j → j < offset + width → s.bitAt j = t.bitAt j) →
    (∃ x y, s.extract offset width = .ok x ∧ t.extract offset width = .ok y ∧ x.value = y.value) ∧
    (s.startAt offset = t.startAt offset → s.endAt offset = t.endAt offset →
      s.startAt (offset + width - 1) = t.startAt (offset + width - 1) →
      s.endAt (offset + width - 1) = t.endAt (offset + width - 1) →
      s.extract offset width = t.extract offset width)

/-- R105: which tags bound a span, in each mode; for width 1 the modes agree. -/
def Obligations.SpanTags : Prop :=
  ∀ (s : State) (offset width : Nat) (low high : Bit), offset + width ≤ 32 → 1 ≤ width →
    s.slots[offset]? = some (some low) → s.slots[offset + width - 1]? = some (some high) →
    (s.cfg.spanMode = .doc → s.span offset width = .ok (low.startPos, high.endPos)) ∧
    (s.cfg.spanMode = .temporal → s.span offset width = .ok (high.startPos, low.endPos)) ∧
    (width = 1 → s.span offset width = .ok (low.startPos, low.endPos))

/-- R85, R134: outside its precondition EXTRACT raises FaultExtract, before it reads any slot; inside
it, a slot that holds `⊥` raises FaultUnwritten, the lowest of the range first (log 14). -/
def Obligations.ExtractFaults : Prop :=
  ∀ (s : State) (offset width : Nat),
    (¬ (1 ≤ width ∧ offset + width ≤ min s.cnt.toNat 32) →
      s.extract offset width = .error (.extract offset width s.cnt.toNat)) ∧
    (1 ≤ width → offset + width ≤ min s.cnt.toNat 32 → ∀ j, offset ≤ j → j < offset + width →
      s.slots[j]? = some none → (∀ k, offset ≤ k → k < j → ∃ b, s.slots[k]? = some (some b)) →
      s.extract offset width = .error (.unwritten j))

/-- R109, R131 code 4: each transform's text, and FaultDomain outside a table. -/
def Obligations.RenderByTransform : Prop :=
  ∀ (reg : RegId) (k : Nat) (v : Word32),
    render reg k .identity v = .ok (dec v.toNat) ∧
    (∀ n, render reg k (.formula n) v = .ok (Config.formula n v.toNat)) ∧
    (∀ labels : List String, ∀ h : v.toNat < labels.length,
      render reg k (.lut labels) v = .ok labels[v.toNat]) ∧
    (∀ labels : List String, labels.length ≤ v.toNat →
      render reg k (.lut labels) v = .error (.domain reg k v))

/-- R108: `dec(n)` is the base-10 numeral of `n`: digits only, none leading that is 0, and read
digit by digit it gives `n` back. -/
def Obligations.DecimalNumerals : Prop :=
  dec 0 = "0" ∧ ∀ n : Nat,
    (∀ c ∈ (dec n).toList, '0' ≤ c ∧ c ≤ '9') ∧
    (0 < n → (dec n).toList.head? ≠ some '0') ∧ (dec n).toList ≠ [] ∧
    (dec n).toList.foldl (fun acc c => acc * 10 + (c.toNat - 48)) 0 = n

/-! ### The frame decoder family -/

/-- R100, R103, R104, R107, R109 to R111: CS 1 on a complete frame of a started block emits exactly the
records of the frame word, in order, and leaves the block cleared; nothing else changes. -/
def Obligations.FrameDecodes : Prop :=
  ∀ (s : State) (w : Word32), Startable s.cfg → s.FrameReady → s.HoldsWord w →
    exec .cs1 s = .next { s.cleared with out := s.out ++ frameEmissionsOf s w }

/-- R112: the document's view of a decoded frame: for each record in order its span, the tag
"register write" and the labels full, abbreviated, terse. The last two texts are free (log 9). -/
def Obligations.DocumentStreamOfAFrame : Prop :=
  ∀ (s : State) (w : Word32), Startable s.cfg → s.FrameReady → s.HoldsWord w →
    ∃ t, exec .cs1 s = .next t ∧
      t.documentStream = s.documentStream ++ (frameEmissionsOf s w).map fun e =>
        ⟨e.record.startPos, e.record.endPos, "register write",
          [e.label, Config.abbreviated e.record s.cfg.schema, Config.terse e.record s.cfg.schema]⟩

/-- R102: CS 1 with any other count emits nothing and leaves the block cleared. -/
def Obligations.WrongLengthIsDiscarded : Prop :=
  ∀ s : State, s.cnt ≠ 32 → exec .cs1 s = .next s.cleared

/-- R113: every CS 1 that completes ends cleared and ACCUMULATING. That the block is then as `s0`, whatever
was before, is R153, which the spec marks as its own inference, and that the flush registers hold no
value is the model's reading (log 25). -/
def Obligations.DeassertionAlwaysClears : Prop :=
  ∀ s t : State, exec .cs1 s = .next t →
    t.cnt = 0 ∧ t.fsm = .accumulating ∧ (∀ j : Fin 32, t.slots[j] = none) ∧
    t = { State.resetWith s.cfg with inputs := s.inputs, out := t.out }

/-- R114: CS 1 with no bit received changes nothing. -/
def Obligations.EmptyDeassertionChangesNothing : Prop :=
  ∀ s : State, s.Inv → s.fsm = .accumulating → s.cnt = 0 → exec .cs1 s = .next s

/-- R100 (`CS 1` twice in a row), R83: the second CS 1 does nothing. -/
def Obligations.SecondDeassertionDoesNothing : Prop :=
  ∀ s t : State, exec .cs1 s = .next t → exec .cs1 t = .next t

/-- R119: a decoded frame emits `1 + length(F)` records: SEL, then FIELD 0, 1, ... in declaration order. -/
def Obligations.EmissionOrder : Prop :=
  ∀ (s t : State) (w : Word32) (es : List Emission), s.FrameReady → s.HoldsWord w →
    exec .cs1 s = .next t → t.out = s.out ++ es →
    es.length = 1 + (fieldList s.cfg.schema (w.setWidth 4)).length ∧
    (∃ e, es[0]? = some e ∧ e.record.akind = .sel ∧ e.record.reg = w.setWidth 4) ∧
    ∀ k, k < (fieldList s.cfg.schema (w.setWidth 4)).length →
      ∃ e, es[k + 1]? = some e ∧ e.record.akind = .field ∧ e.record.fidx = k ∧
        e.record.reg = w.setWidth 4

/-- R101, R102, R88, R89, R86: an event that emits is a CS 1 on a count of exactly 32. -/
def Obligations.OnlyDecodedFramesEmit : Prop :=
  ∀ (i : Instr) (s t : State), exec i s = .next t → t.out ≠ s.out → i = .cs1 ∧ s.cnt = 32

/-- R116: with a reference schema, ids 13, 14, 15 (ABSENT) give the SEL record alone, labelled with the id.
The same of ids 5, 8, 11 (empty) is R115, which the spec marks as its own inference. -/
def Obligations.EmptyAndUnknownRegisters : Prop :=
  ∀ (s : State) (w : Word32), s.cfg.schema.IsReference → s.FrameReady → s.HoldsWord w →
    (w.toNat % 16 = 5 ∨ w.toNat % 16 = 8 ∨ w.toNat % 16 = 11 ∨ 13 ≤ w.toNat % 16) →
    ∃ e, exec .cs1 s = .next { s.cleared with out := s.out ++ [e] } ∧
      e.record.akind = .sel ∧ e.record.reg.toNat = w.toNat % 16 ∧
      e.label = "Register: " ++ dec (w.toNat % 16) ∧
      (w.toNat % 16 = 13 → e.label = "Register: 13")

/-- 95_test_vectors.md L1.5 with R117, R118: register 0 with INT = 100, Prescaler = 1, AutoCal = 1
yields the four labels of the document, for every reference schema. -/
def Obligations.RegisterZeroLabels : Prop :=
  ∀ (s : State) (w : Word32) (int pre cal : FieldDesc), Startable s.cfg →
    s.cfg.schema.IsReference → s.FrameReady → s.HoldsWord w → w.toNat % 16 = 0 →
    s.cfg.schema.lookup 0 = some [int, pre, cal] →
    fieldOf w int.offset int.width = 100 → fieldOf w pre.offset pre.width = 1 →
    fieldOf w cal.offset cal.width = 1 →
    ∃ t es, exec .cs1 s = .next t ∧ t.out = s.out ++ es ∧
      es.map Emission.label = ["Register: 0", "INT: 100", "Prescaler: 8/9", "AutoCal: Enabled"]

/-- R118 (4), 95_test_vectors.md L1.6: register 6 has a field RF Output Power of width 2, at some index
`k`, for every reference schema, and a frame's FIELD record of that index carries that field's value
of the frame word and the document's label for it. -/
def Obligations.RfOutputPowerLabels : Prop :=
  ∀ (s : State) (w : Word32), Startable s.cfg → s.cfg.schema.IsReference → s.FrameReady →
    s.HoldsWord w → w.toNat % 16 = 6 →
    ∃ k d, (fieldList s.cfg.schema 6)[k]? = some d ∧ d.name = "RF Output Power" ∧ d.width = 2 ∧
      ∃ t es e l, exec .cs1 s = .next t ∧ t.out = s.out ++ es ∧ es[k + 1]? = some e ∧
        e.record.akind = .field ∧ e.record.reg = 6 ∧ e.record.fidx = k ∧
        e.record.value = fieldOf w d.offset d.width ∧
        ["-4dBm", "-1dBm", "+2dBm", "+5dBm"][(fieldOf w d.offset d.width).toNat]? = some l ∧
        e.label = "RF Output Power: " ++ l

/-! ### The block and the document's decoder -/

/-- R25: from states that stand for each other, one event takes both to states that do again, with the
same emissions; the document's programming errors do not occur. -/
def Obligations.BlockFollowsDocument : Prop :=
  ∀ (i : Instr) (s : State) (d : DocState), Startable s.cfg → Represents s d →
    ∃ t d', exec i s = .next t ∧ docStep s.cfg i d = some d' ∧ Represents t d' ∧ t.cfg = s.cfg

/-- R25: over any run of events from reset, the block's output is the output of the document's decoder
with its unbounded buffer. -/
def Obligations.BlockOutputsWhatDocumentOutputs : Prop :=
  ∀ (cfg : Config) (is : List Instr), Startable cfg →
    ∃ t d, runEvents is (State.resetWith cfg) = .next t ∧ docRun cfg is ⟨[], []⟩ = some d ∧
      t.out = d.out ∧ t.cnt.toNat = min d.buffer.length 33 ∧
      ∀ j : Fin 32, t.slots[j] = d.buffer[j.val]?

/-! ### The cycle level -/

/-- R61: when `in_ready` is 1, and that an event is taken only at an edge with `rst = 0`, `in_valid = 1`
and `in_ready = 1`; at any other edge the word on the port has no effect. -/
def Obligations.InputHandshake : Prop :=
  ∀ (p : Pins) (s : State),
    (inReady p.rst s = true ↔ p.rst = false ∧ s.fsm = .accumulating) ∧
    (inReady p.rst s = true → p.inValid = true →
      clockEdge p s = acceptEvent (decode s.cfg.posW p.inWord) s) ∧
    (inReady p.rst s = false ∨ p.inValid = false →
      ∀ ev, clockEdge p s = clockEdge { p with inWord := ev } s) ∧
    (inReady p.rst s = true → p.inValid = false → clockEdge p s = .next s)

/-- R160: an accepted event that starts no flush does at its edge what its event step does. -/
def Obligations.AcceptedEventIsTheEventStep : Prop :=
  ∀ (p : Pins) (s : State), s.Inv → s.fsm = .accumulating → p.rst = false → p.inValid = true →
    decode s.cfg.posW p.inWord ≠ .cs1 ∨ s.cnt ≠ 32 →
    clockEdge p s = exec (decode s.cfg.posW p.inWord) s

/-- R151, R152: at an edge with `rst = 1` the block becomes `s0`, nothing is accepted and nothing is
delivered; records already delivered stand. -/
def Obligations.ResetEdge : Prop :=
  ∀ (p : Pins) (s : State), p.rst = true →
    inReady p.rst s = false ∧ annValid p.rst s = false ∧
    clockEdge p s = .next { State.resetWith s.cfg with inputs := s.inputs, out := s.out }

/-- R160: the accepting edge of a decodable CS 1 latches the frame word and the selector, starts the
flush at the selector record, and delivers nothing yet. -/
def Obligations.FlushStarts : Prop :=
  ∀ (p : Pins) (s : State) (w : Word32), s.FrameReady → s.HoldsWord w → s.fsm = .accumulating →
    p.rst = false → p.inValid = true → decode s.cfg.posW p.inWord = .cs1 →
    clockEdge p s = .next { s with fsm := .flushing, fl := some ⟨w, w.setWidth 4, 0, .selector⟩ }

/-- R71, R159, R160: after the accepting edge of CS 1 and edges with `rst = 0` of which `m` have
`ann_ready = 1`, fewer than the frame has records, exactly the first `m` records are delivered, none
dropped and none repeated; the block is still FLUSHING and record `m` is on the port. -/
def Obligations.FlushDeliversInOrder : Prop :=
  ∀ (s : State) (w : Word32) (p : Pins) (ps : List Pins), Startable s.cfg → s.FrameReady →
    s.HoldsWord w → s.fsm = .accumulating → p.rst = false → p.inValid = true →
    decode s.cfg.posW p.inWord = .cs1 → (∀ q ∈ ps, q.rst = false) →
    ps.countP Pins.annReady < (frameEmissionsOf s w).length →
    ∃ t e, runEdges (p :: ps) s = .next t ∧ t.fsm = .flushing ∧ t.cnt = s.cnt ∧ t.slots = s.slots ∧
      t.out = s.out ++ (frameEmissionsOf s w).take (ps.countP Pins.annReady) ∧
      (frameEmissionsOf s w)[ps.countP Pins.annReady]? = some e ∧
      annWord t = .ok (e.record.toWord s.cfg.posW s.cfg.fidxW)

/-- R160, D1: the flush refines the event step: the accepting edge of CS 1, and then edges with
`rst = 0` until the edge that accepts the last record, end in the state of the one event step. -/
def Obligations.FlushRefinesDeassertion : Prop :=
  ∀ (s : State) (w : Word32) (p last : Pins) (ps : List Pins), Startable s.cfg → s.FrameReady →
    s.HoldsWord w → s.fsm = .accumulating → p.rst = false → p.inValid = true →
    decode s.cfg.posW p.inWord = .cs1 → (∀ q ∈ ps, q.rst = false) → last.rst = false →
    last.annReady = true → ps.countP Pins.annReady + 1 = (frameEmissionsOf s w).length →
    runEdges (p :: ps ++ [last]) s = exec .cs1 s

/-- R71, R159, R160: `ann_valid` is 1 exactly when `rst = 0` and `fsm = FLUSHING`, and a sink that does not
accept holds the flush: through any edges with `rst = 0` and `ann_ready = 0` the state stays, so the
port shows the same word as valid, and no event is accepted. -/
def Obligations.SinkHoldsTheFlush : Prop :=
  (∀ (rst : Bool) (s : State), annValid rst s = true ↔ rst = false ∧ s.fsm = .flushing) ∧
  ∀ (s : State) (ps : List Pins), s.fsm = .flushing →
    (∀ q ∈ ps, q.rst = false ∧ q.annReady = false) →
    runEdges ps s = .next s ∧ annValid false s = true ∧ inReady false s = false

/-- R62, R64 WF_COUNT: the word on the output port of a flushing block carries the record due: the
record fits the port, and reading the word gives the record back. -/
def Obligations.PortCarriesTheRecordDue : Prop :=
  ∀ s : State, s.Inv → Startable s.cfg → s.fsm = .flushing →
    ∃ r e word, s.fl = some r ∧ s.dueEmission r = .ok e ∧ annWord s = .ok word ∧
      word < 2 ^ annWidth s.cfg.posW s.cfg.fidxW ∧
      AnnRecord.ofWord s.cfg.posW s.cfg.fidxW word = e.record
end

