-- ==== Sys2Proof/Laws/Decode.lean ====
section
/-! SUPPORT. How a bit field reads out of a sum of fields (spec 00_scope.md R14; 30_encoding.md R56, R62). -/

namespace Sys2Proof

/-- A field of a word made of a low part, the field and a high part is the field. -/
theorem bitField_add (lo width a b c : Nat) (ha : a < 2 ^ lo) (hb : b < 2 ^ width) :
    bitField lo width (a + b * 2 ^ lo + c * 2 ^ (lo + width)) = b := by
  have h : a + b * 2 ^ lo + c * 2 ^ (lo + width) = a + 2 ^ lo * (b + 2 ^ width * c) := by
    rw [Nat.pow_add]; ring
  rw [bitField, h, Nat.add_mul_div_left _ _ (Nat.two_pow_pos lo), Nat.div_eq_of_lt ha, Nat.zero_add,
    Nat.add_mul_mod_self_left, Nat.mod_eq_of_lt hb]

/-- A field's value fits its width. -/
theorem bitField_fits (lo width v : Nat) : fitsBits width (bitField lo width v) = true := by
  simp [fitsBits, bitField, Nat.mod_lt _ (Nat.two_pow_pos width)]

/-- `fitsBits` is the bound it names. -/
@[simp] theorem fitsBits_iff (width n : Nat) : fitsBits width n = true ↔ n < 2 ^ width := by
  simp [fitsBits]

end Sys2Proof
end

