-- ==== Sys2Proof/Laws/State.lean ====
section
/-! SUPPORT. One lemma per field per update of State, each true by rfl. -/

namespace Sys2Proof.Machine

@[simp] theorem State.shiftIn_cfg (s : State) (b : Bit) : (s.shiftIn b).cfg = s.cfg := rfl
@[simp] theorem State.shiftIn_slots (s : State) (b : Bit) : (s.shiftIn b).slots = shiftedSlots s.slots b := rfl
@[simp] theorem State.shiftIn_cnt (s : State) (b : Bit) : (s.shiftIn b).cnt = countUp s.cnt := rfl
@[simp] theorem State.shiftIn_fsm (s : State) (b : Bit) : (s.shiftIn b).fsm = s.fsm := rfl
@[simp] theorem State.shiftIn_fl (s : State) (b : Bit) : (s.shiftIn b).fl = s.fl := rfl
@[simp] theorem State.shiftIn_inputs (s : State) (b : Bit) : (s.shiftIn b).inputs = s.inputs := rfl
@[simp] theorem State.shiftIn_out (s : State) (b : Bit) : (s.shiftIn b).out = s.out := rfl

@[simp] theorem State.clear_cfg (s : State) : s.clear.cfg = s.cfg := rfl
@[simp] theorem State.clear_slots (s : State) : s.clear.slots = Vector.replicate 32 none := rfl
@[simp] theorem State.clear_cnt (s : State) : s.clear.cnt = 0 := rfl
@[simp] theorem State.clear_fsm (s : State) : s.clear.fsm = s.fsm := rfl
@[simp] theorem State.clear_fl (s : State) : s.clear.fl = s.fl := rfl
@[simp] theorem State.clear_inputs (s : State) : s.clear.inputs = s.inputs := rfl
@[simp] theorem State.clear_out (s : State) : s.clear.out = s.out := rfl

@[simp] theorem State.emit_cfg (s : State) (es : List Emission) : (s.emit es).cfg = s.cfg := rfl
@[simp] theorem State.emit_slots (s : State) (es : List Emission) : (s.emit es).slots = s.slots := rfl
@[simp] theorem State.emit_cnt (s : State) (es : List Emission) : (s.emit es).cnt = s.cnt := rfl
@[simp] theorem State.emit_fsm (s : State) (es : List Emission) : (s.emit es).fsm = s.fsm := rfl
@[simp] theorem State.emit_fl (s : State) (es : List Emission) : (s.emit es).fl = s.fl := rfl
@[simp] theorem State.emit_inputs (s : State) (es : List Emission) : (s.emit es).inputs = s.inputs := rfl
@[simp] theorem State.emit_out (s : State) (es : List Emission) : (s.emit es).out = s.out ++ es := rfl

@[simp] theorem State.toAccumulating_cfg (s : State) : s.toAccumulating.cfg = s.cfg := rfl
@[simp] theorem State.toAccumulating_slots (s : State) : s.toAccumulating.slots = s.slots := rfl
@[simp] theorem State.toAccumulating_cnt (s : State) : s.toAccumulating.cnt = s.cnt := rfl
@[simp] theorem State.toAccumulating_fsm (s : State) : s.toAccumulating.fsm = .accumulating := rfl
@[simp] theorem State.toAccumulating_fl (s : State) : s.toAccumulating.fl = none := rfl
@[simp] theorem State.toAccumulating_inputs (s : State) : s.toAccumulating.inputs = s.inputs := rfl
@[simp] theorem State.toAccumulating_out (s : State) : s.toAccumulating.out = s.out := rfl

@[simp] theorem State.endFrame_cfg (s : State) : s.endFrame.cfg = s.cfg := rfl
@[simp] theorem State.endFrame_slots (s : State) : s.endFrame.slots = Vector.replicate 32 none := rfl
@[simp] theorem State.endFrame_cnt (s : State) : s.endFrame.cnt = 0 := rfl
@[simp] theorem State.endFrame_fsm (s : State) : s.endFrame.fsm = .accumulating := rfl
@[simp] theorem State.endFrame_fl (s : State) : s.endFrame.fl = none := rfl
@[simp] theorem State.endFrame_inputs (s : State) : s.endFrame.inputs = s.inputs := rfl
@[simp] theorem State.endFrame_out (s : State) : s.endFrame.out = s.out := rfl

@[simp] theorem State.hardReset_cfg (s : State) : s.hardReset.cfg = s.cfg := rfl
@[simp] theorem State.hardReset_slots (s : State) : s.hardReset.slots = Vector.replicate 32 none := rfl
@[simp] theorem State.hardReset_cnt (s : State) : s.hardReset.cnt = 0 := rfl
@[simp] theorem State.hardReset_fsm (s : State) : s.hardReset.fsm = .accumulating := rfl
@[simp] theorem State.hardReset_fl (s : State) : s.hardReset.fl = none := rfl
@[simp] theorem State.hardReset_inputs (s : State) : s.hardReset.inputs = s.inputs := rfl
@[simp] theorem State.hardReset_out (s : State) : s.hardReset.out = s.out := rfl

@[simp] theorem State.resetWith_cfg (cfg : Config) : (State.resetWith cfg).cfg = cfg := rfl
@[simp] theorem State.resetWith_slots (cfg : Config) : (State.resetWith cfg).slots = Vector.replicate 32 none := rfl
@[simp] theorem State.resetWith_cnt (cfg : Config) : (State.resetWith cfg).cnt = 0 := rfl
@[simp] theorem State.resetWith_fsm (cfg : Config) : (State.resetWith cfg).fsm = .accumulating := rfl
@[simp] theorem State.resetWith_fl (cfg : Config) : (State.resetWith cfg).fl = none := rfl
@[simp] theorem State.resetWith_inputs (cfg : Config) : (State.resetWith cfg).inputs = [] := rfl
@[simp] theorem State.resetWith_out (cfg : Config) : (State.resetWith cfg).out = [] := rfl

@[simp] theorem State.cleared_cfg (s : State) : s.cleared.cfg = s.cfg := rfl
@[simp] theorem State.cleared_slots (s : State) : s.cleared.slots = Vector.replicate 32 none := rfl
@[simp] theorem State.cleared_cnt (s : State) : s.cleared.cnt = 0 := rfl
@[simp] theorem State.cleared_fsm (s : State) : s.cleared.fsm = .accumulating := rfl
@[simp] theorem State.cleared_fl (s : State) : s.cleared.fl = none := rfl
@[simp] theorem State.cleared_inputs (s : State) : s.cleared.inputs = s.inputs := rfl
@[simp] theorem State.cleared_out (s : State) : s.cleared.out = s.out := rfl

/-- The end of a frame is the cleared state of R113. -/
theorem State.endFrame_eq_cleared (s : State) : s.endFrame = s.cleared := rfl

end Sys2Proof.Machine
end

