-- ==== Sys2Proof/Laws/Ops.lean ====
section
/-! SUPPORT. What each shared operation of Machine/Ops.lean does, said once. -/

namespace Sys2Proof.Machine

/-- Slot 0 of the shifted slots is the new Bit. -/
@[simp] theorem shiftedSlots_zero (slots : Vector (Option Bit) 32) (b : Bit) :
    (shiftedSlots slots b)[0] = some b := by
  show ((#v[some b] ++ slots).pop)[0] = some b
  rw [Vector.getElem_pop, Vector.getElem_append_left (by omega)]
  rfl

/-- Slot `j + 1` of the shifted slots is the old slot `j`. -/
@[simp] theorem shiftedSlots_succ (slots : Vector (Option Bit) 32) (b : Bit) (j : Nat)
    (h : j + 1 < 32) : (shiftedSlots slots b)[j + 1] = slots[j] := by
  show ((#v[some b] ++ slots).pop)[j + 1] = slots[j]
  rw [Vector.getElem_pop, Vector.getElem_append_right (i := j + 1) (by omega)]
  · simp
  · omega

/-- The count after one more bit, as a number. -/
@[simp] theorem countUp_toNat (cnt : BitVec 6) : (countUp cnt).toNat = min (cnt.toNat + 1) 33 := by
  have : min (cnt.toNat + 1) 33 < 2 ^ 6 := by omega
  simp only [countUp, BitVec.toNat_ofNat, Nat.mod_eq_of_lt this]

@[simp] theorem raise_ok (s : State) : raise (.ok s) = .next s := rfl

@[simp] theorem raise_error (f : Fault) : raise (.error f) = .fault f := rfl

/-- `raise` answers a next state only for a computed state. -/
theorem raise_eq_next {x : Except Fault State} {t : State} : raise x = .next t ↔ x = .ok t := by
  cases x <;> simp

/-- `raise` never refuses. -/
theorem raise_ne_refused (x : Except Fault State) (r : Refusal) : raise x ≠ .refused r := by
  cases x <;> simp

/-- Reading a slot that holds a Bit gives that Bit. -/
theorem readSlot_of_some {s : State} {j : Nat} {b : Bit} (h : s.slots[j]? = some (some b)) :
    s.readSlot j = .ok b := by
  simp [State.readSlot, h]

/-- Reading a slot that holds `⊥` raises FaultUnwritten. -/
theorem readSlot_of_none {s : State} {j : Nat} (h : s.slots[j]? = some none) :
    s.readSlot j = .error (.unwritten j) := by
  simp [State.readSlot, h]

/-- What a read that succeeds says about the slot. -/
theorem readSlot_eq_ok {s : State} {j : Nat} {b : Bit} :
    s.readSlot j = .ok b ↔ s.slots[j]? = some (some b) := by
  unfold State.readSlot
  split <;> simp_all

/-- In a full block every slot holds a Bit. -/
theorem State.Full.slot {s : State} (h : s.Full) {j : Nat} (hj : j < 32) :
    ∃ b, s.slots[j]? = some (some b) := by
  have := h ⟨j, hj⟩
  rw [Option.isSome_iff_exists] at this
  obtain ⟨b, hb⟩ := this
  exact ⟨b, by simpa [hj] using hb⟩

/-- The total views of a slot that holds a Bit. -/
theorem State.views_of_some {s : State} {j : Nat} {b : Bit} (h : s.slots[j]? = some (some b)) :
    s.bitAt j = b.value ∧ s.startAt j = b.startPos ∧ s.endAt j = b.endPos := by
  simp [State.bitAt, State.startAt, State.endAt, h]

/-- The three accessors of a slot that holds a Bit, by the total views. -/
theorem State.accessors_of_some {s : State} {j : Nat} {b : Bit} (h : s.slots[j]? = some (some b)) :
    s.srVal j = .ok (s.bitAt j) ∧ s.srStart j = .ok (s.startAt j) ∧ s.srEnd j = .ok (s.endAt j) := by
  obtain ⟨h1, h2, h3⟩ := State.views_of_some h
  simp [State.srVal, State.srStart, State.srEnd, readSlot_of_some h, h1, h2, h3, Except.map]

/-- A count of 32 fills every slot when the slots agree with the count (R23). -/
theorem State.SlotsOk.full {s : State} (h : s.SlotsOk) (hc : s.cnt = 32) : s.Full := by
  intro j
  rw [h j]
  have : s.filled = 32 := by simp [State.filled, hc]
  simp [this]

end Sys2Proof.Machine
end

