-- ==== Sys2Proof/Laws/Operands.lean ====
section
/-! SUPPORT. The place-value sum, the frame word, spans and labels: one lemma for each operation of Machine/Operands.lean. -/

namespace Sys2Proof.Machine

/-- The place-value sum of a bit function over `[offset, offset+width)` (R84). -/
def placeSum (f : Nat → Bool) : (offset width : Nat) → Nat
  | _, 0 => 0
  | offset, width + 1 => (f offset).toNat + 2 * placeSum f (offset + 1) width

/-- R120: a place-value sum of `width` bits is below `2^width`. -/
theorem placeSum_lt (f : Nat → Bool) (offset width : Nat) : placeSum f offset width < 2 ^ width := by
  induction width generalizing offset with
  | zero => simp [placeSum]
  | succ n ih =>
    have h1 := ih (offset + 1)
    have h2 : (f offset).toNat ≤ 1 := by cases f offset <;> simp
    rw [placeSum, Nat.pow_succ]
    omega

/-- The recursion is the sum of R84 as the rule writes it. -/
theorem placeSum_eq_sum (f : Nat → Bool) (offset width : Nat) :
    placeSum f offset width = ∑ i ∈ Finset.range width, (f (offset + i)).toNat * 2 ^ i := by
  induction width generalizing offset with
  | zero => rfl
  | succ n ih =>
    rw [placeSum, ih (offset + 1), Finset.sum_range_succ', Finset.mul_sum, Nat.add_comm]
    simp only [Nat.pow_zero, Nat.mul_one, Nat.add_zero, Nat.pow_succ]
    congr 1
    refine Finset.sum_congr rfl fun i _ => ?_
    rw [show offset + 1 + i = offset + (i + 1) by omega]
    ring

/-- Two bit functions that agree on the range have the same sum. -/
theorem placeSum_congr {f g : Nat → Bool} (offset width : Nat)
    (h : ∀ j, offset ≤ j → j < offset + width → f j = g j) :
    placeSum f offset width = placeSum g offset width := by
  induction width generalizing offset with
  | zero => rfl
  | succ n ih =>
    rw [placeSum, placeSum, h offset (by omega) (by omega), ih (offset + 1)]
    intro j h1 h2
    exact h j (by omega) (by omega)

/-- The sum of the bits of a number is its bit field (R66). -/
theorem placeSum_testBit (v offset width : Nat) :
    placeSum v.testBit offset width = v / 2 ^ offset % 2 ^ width := by
  induction width generalizing offset with
  | zero => simp [placeSum, Nat.mod_one]
  | succ n ih =>
    rw [placeSum, ih (offset + 1), Nat.pow_succ 2 n, Nat.mul_comm (2 ^ n) 2, Nat.mod_mul,
      Nat.div_div_eq_div_mul, ← Nat.pow_succ, Nat.toNat_testBit]

/-- `placeValue` over slots that all hold Bits is the place-value sum. -/
theorem placeValue_of_defined {s : State} (offset width : Nat)
    (h : ∀ j, offset ≤ j → j < offset + width → ∃ b, s.slots[j]? = some (some b)) :
    s.placeValue offset width = .ok (placeSum s.bitAt offset width) := by
  induction width generalizing offset with
  | zero => rfl
  | succ n ih =>
    obtain ⟨b, hb⟩ := h offset (by omega) (by omega)
    have hr := ih (offset + 1) (fun j h1 h2 => h j (by omega) (by omega))
    simp [State.placeValue, (State.accessors_of_some hb).1, hr, placeSum, bind, Except.bind]

/-- A `placeValue` that succeeds read only slots that hold Bits, and is their sum. -/
theorem placeValue_eq_ok {s : State} {offset width v : Nat} (h : s.placeValue offset width = .ok v) :
    (∀ j, offset ≤ j → j < offset + width → ∃ b, s.slots[j]? = some (some b)) ∧
      v = placeSum s.bitAt offset width := by
  have hdef : ∀ j, offset ≤ j → j < offset + width → ∃ b, s.slots[j]? = some (some b) := by
    induction width generalizing offset v with
    | zero => intro j h1 h2; omega
    | succ n ih =>
      intro j h1 h2
      simp only [State.placeValue, State.srVal, bind, Except.bind] at h
      cases hr : s.readSlot offset with
      | error f => simp [hr, Except.map] at h
      | ok b =>
        cases hp : s.placeValue (offset + 1) n with
        | error f => simp [hr, hp, Except.map] at h
        | ok r =>
          rcases Nat.eq_or_lt_of_le h1 with rfl | hlt
          · exact ⟨b, readSlot_eq_ok.mp hr⟩
          · exact ih hp j (by omega) (by omega)
  refine ⟨hdef, ?_⟩
  rw [placeValue_of_defined offset width hdef] at h
  exact (Except.ok.inj h).symm

/-- The first slot that holds `⊥` stops `placeValue` (R23). -/
theorem placeValue_unwritten {s : State} {offset width j : Nat} (h1 : offset ≤ j)
    (h2 : j < offset + width) (hj : s.slots[j]? = some none)
    (hb : ∀ k, offset ≤ k → k < j → ∃ b, s.slots[k]? = some (some b)) :
    s.placeValue offset width = .error (.unwritten j) := by
  induction width generalizing offset with
  | zero => omega
  | succ n ih =>
    rcases Nat.eq_or_lt_of_le h1 with rfl | hlt
    · simp [State.placeValue, State.srVal, readSlot_of_none hj, Except.map, bind, Except.bind]
    · obtain ⟨b, hb0⟩ := hb offset (Nat.le_refl _) hlt
      have := ih (offset := offset + 1) hlt (by omega) (fun k h3 h4 => hb k (by omega) h4)
      simp [State.placeValue, (State.accessors_of_some hb0).1, this, bind, Except.bind]

/-- The sum over a word's slots is the word's bit field (R66). -/
theorem placeSum_of_word {s : State} {w : Word32} (hw : s.HoldsWord w) {offset width : Nat}
    (h : offset + width ≤ 32) :
    placeSum s.bitAt offset width = w.toNat / 2 ^ offset % 2 ^ width := by
  rw [← placeSum_testBit]
  refine placeSum_congr offset width fun j _ h2 => ?_
  rw [← hw j (by omega), BitVec.testBit_toNat]

/-- The frame word of a full block that holds `w` is `w` (R42). -/
theorem frameWord_of_word {s : State} {w : Word32} (hf : s.Full) (hw : s.HoldsWord w) :
    s.frameWord = .ok w := by
  have h1 := placeValue_of_defined (s := s) 0 32 (fun j _ h => hf.slot (by omega))
  rw [placeSum_of_word hw (by omega)] at h1
  simp only [State.frameWord, h1, bind, Except.bind]
  congr 1
  apply BitVec.eq_of_toNat_eq
  simpa using w.isLt

/-- Span over slots that hold Bits is the span of the statements (R105). -/
theorem span_of_full {s : State} (hf : s.Full) {offset width : Nat} (h1 : 1 ≤ width)
    (h2 : offset + width ≤ 32) :
    s.span offset width = .ok (s.spanStart offset width, s.spanEnd offset width) := by
  obtain ⟨lo, hlo⟩ := hf.slot (j := offset) (by omega)
  obtain ⟨hi, hhi⟩ := hf.slot (j := offset + width - 1) (by omega)
  have a := State.accessors_of_some hlo
  have b := State.accessors_of_some hhi
  cases hm : s.cfg.spanMode <;>
    simp [State.span, State.spanStart, State.spanEnd, hm, a, b, bind, Except.bind]

/-- EXTRACT's precondition, as a proposition (R85). -/
@[simp] theorem canExtract_iff (s : State) (offset width : Nat) :
    s.canExtract offset width = true ↔ 1 ≤ width ∧ offset + width ≤ min s.cnt.toNat 32 := by
  simp [State.canExtract, State.filled]

/-- A Bit in every slot and a count of 32 meet every precondition up to bit 31. -/
theorem canExtract_of_frameReady {s : State} (h : s.FrameReady) {offset width : Nat}
    (h1 : 1 ≤ width) (h2 : offset + width ≤ 32) : s.canExtract offset width = true := by
  have : s.cnt.toNat = 32 := by rw [h.1]; rfl
  rw [canExtract_iff, this]
  exact ⟨h1, by simpa using h2⟩

/-- What `render` answers where the transform covers the value (R109). -/
theorem render_of_total {reg : RegId} {k width : Nat} {xform : Transform} {value : Word32}
    (ht : ∀ labels, xform = .lut labels → 2 ^ width ≤ labels.length) (hv : value.toNat < 2 ^ width) :
    render reg k xform value = .ok (textOf xform value) := by
  cases xform with
  | identity => rfl
  | formula n => rfl
  | lut labels =>
    have h : value.toNat < labels.length := Nat.lt_of_lt_of_le hv (ht labels rfl)
    simp [render, textOf, h]

/-- A `render` that succeeds gives the text of the statements. -/
theorem render_eq_ok {reg : RegId} {k : Nat} {xform : Transform} {value : Word32} {l : String}
    (h : render reg k xform value = .ok l) : l = textOf xform value := by
  cases xform with
  | identity => exact (Except.ok.inj h).symm
  | formula n => exact (Except.ok.inj h).symm
  | lut labels =>
    simp only [render] at h
    split at h
    · rename_i hl
      simp [textOf, List.getD, hl, ← Except.ok.inj h]
    · cases h

end Sys2Proof.Machine
end

