-- ==== Sys2Proof/Laws/PerInstr.lean ====
section
/-! SUPPORT. Facts about every event form, one lemma for each constructor. -/

namespace Sys2Proof.Laws.TableBits

/-- The bits of spec/opcode_table.json that are fixed for a form, as `(modulus, value)`: the event word
is `value` modulo `modulus`. -/
def fixedBits : Instr → Nat × Nat
  | .bit _ _ _ => (4, 0)
  | .cs0 => (8, 1)
  | .cs1 => (8, 5)
  | .evk2 => (4, 2)
  | .evk3 => (4, 3)

/-- At every POS_W the event word of the event has the fixed bits of its row of the opcode table. -/
def Statement (i : Instr) : Prop :=
  ∀ posW : Nat, encode posW i % (fixedBits i).1 = (fixedBits i).2

theorem bit (v : Bool) (s e : Nat) : Statement (.bit v s e) := by
  intro posW
  have h : e * 2 ^ (posW + 3) = e * 2 ^ posW * 8 := by ring
  simp only [encode, fixedBits, h]
  omega

theorem cs0 : Statement .cs0 := fun _ => rfl

theorem cs1 : Statement .cs1 := fun _ => rfl

theorem evk2 : Statement .evk2 := fun _ => rfl

theorem evk3 : Statement .evk3 := fun _ => rfl

end Sys2Proof.Laws.TableBits
end

