-- ==== Sys2Proof/Laws/Schema.lean ====
section
/-! SUPPORT. What the schema checks of Machine/SchemaCheck.lean decide, and what a started block may rely on. -/

namespace Sys2Proof

/-- A field check that does not look at the fields before it finds nothing exactly when no field is bad. -/
theorem firstBadField_eq_none {bad : FieldDesc → Bool} (before fs : List FieldDesc) (k : Nat) :
    firstBadField (fun _ d => bad d) before fs k = none ↔ ∀ d ∈ fs, bad d = false := by
  induction fs generalizing before k with
  | nil => simp [firstBadField]
  | cons d rest ih =>
    cases hb : bad d <;> simp [firstBadField, hb, ih]

/-- The overlap check finds nothing exactly when the fields are pairwise apart, and apart from those before. -/
theorem firstBadField_overlaps_eq_none (before fs : List FieldDesc) (k : Nat) :
    firstBadField (fun b d => b.any (·.overlaps d)) before fs k = none ↔
      (∀ a ∈ before, ∀ d ∈ fs, a.overlaps d = false) ∧
      fs.Pairwise fun a b => a.overlaps b = false := by
  induction fs generalizing before k with
  | nil => simp [firstBadField]
  | cons d rest ih =>
    rw [firstBadField]
    split
    · rename_i h
      obtain ⟨a, ha, hov⟩ := List.any_eq_true.mp h
      simp only [reduceCtorEq, false_iff, not_and]
      intro hall
      simp [hall a ha d (by simp)] at hov
    · rename_i h
      have hd : ∀ a ∈ before, a.overlaps d = false := by
        intro a ha
        cases ho : a.overlaps d with
        | false => rfl
        | true => exact absurd (List.any_eq_true.mpr ⟨a, ha, ho⟩) h
      rw [ih, List.pairwise_cons]
      constructor
      · rintro ⟨h1, h2⟩
        refine ⟨fun a ha x hx => ?_, fun x hx => h1 d (by simp) x hx, h2⟩
        rcases List.mem_cons.mp hx with rfl | hx
        · exact hd a ha
        · exact h1 a (by simp [ha]) x hx
      · rintro ⟨h1, h2, h3⟩
        refine ⟨fun a ha x hx => ?_, h3⟩
        rcases List.mem_append.mp ha with ha | ha
        · exact h1 a ha x (by simp [hx])
        · rw [List.mem_singleton.mp ha]
          exact h2 x hx

/-- The field found stands in the list, and it is bad against the fields before it. -/
theorem firstBadField_eq_some {bad : List FieldDesc → FieldDesc → Bool} {before fs : List FieldDesc}
    {k n : Nat} (h : firstBadField bad before fs k = some n) :
    ∃ i d, n = k + i ∧ fs[i]? = some d ∧ bad (before ++ fs.take i) d = true := by
  induction fs generalizing before k with
  | nil => simp [firstBadField] at h
  | cons d rest ih =>
    rw [firstBadField] at h
    split at h
    · rename_i hb
      exact ⟨0, d, by simpa using h.symm, by simp, by simpa using hb⟩
    · obtain ⟨i, x, h1, h2, h3⟩ := ih h
      exact ⟨i + 1, x, by omega, by simpa using h2, by simpa using h3⟩

/-- A field check passes a schema exactly when it finds no bad field in any entry. -/
theorem Schema.fieldProblem_eq_none (check : SchemaCheck) (bad : List FieldDesc → FieldDesc → Bool)
    (sch : Schema) : Schema.fieldProblem check bad sch = none ↔
      ∀ p ∈ sch, firstBadField bad [] p.2 0 = none := by
  induction sch with
  | nil => simp [Schema.fieldProblem]
  | cons p rest ih =>
    obtain ⟨reg, fs⟩ := p
    cases hb : firstBadField bad [] fs 0 <;> simp [Schema.fieldProblem, hb, ih]

/-- What a field check refuses, it found in an entry. -/
theorem Schema.fieldProblem_eq_some {check : SchemaCheck} {bad : List FieldDesc → FieldDesc → Bool}
    {sch : Schema} {r : Machine.Refusal} (h : Schema.fieldProblem check bad sch = some r) :
    ∃ reg fs k, (reg, fs) ∈ sch ∧ firstBadField bad [] fs 0 = some k ∧
      r = .schema check reg (some k) := by
  induction sch with
  | nil => simp [Schema.fieldProblem] at h
  | cons p rest ih =>
    obtain ⟨reg, fs⟩ := p
    rw [Schema.fieldProblem] at h
    split at h
    · rename_i k hk
      exact ⟨reg, fs, k, by simp, hk, (Option.some.inj h).symm⟩
    · obtain ⟨reg', fs', k, h1, h2, h3⟩ := ih h
      exact ⟨reg', fs', k, by simp [h1], h2, h3⟩

/-- An entry check passes a schema exactly when every entry does. -/
theorem Schema.entryProblem_eq_none (check : SchemaCheck) (bad : Nat → List FieldDesc → Bool)
    (sch : Schema) : Schema.entryProblem check bad sch = none ↔ ∀ p ∈ sch, bad p.1 p.2 = false := by
  induction sch with
  | nil => simp [Schema.entryProblem]
  | cons p rest ih =>
    obtain ⟨reg, fs⟩ := p
    cases hb : bad reg fs <;> simp [Schema.entryProblem, hb, ih]

/-- What an entry check refuses is an entry. -/
theorem Schema.entryProblem_eq_some {check : SchemaCheck} {bad : Nat → List FieldDesc → Bool}
    {sch : Schema} {r : Machine.Refusal} (h : Schema.entryProblem check bad sch = some r) :
    ∃ reg fs, (reg, fs) ∈ sch ∧ bad reg fs = true ∧ r = .schema check reg none := by
  induction sch with
  | nil => simp [Schema.entryProblem] at h
  | cons p rest ih =>
    obtain ⟨reg, fs⟩ := p
    rw [Schema.entryProblem] at h
    split at h
    · rename_i hb
      exact ⟨reg, fs, by simp, hb, (Option.some.inj h).symm⟩
    · obtain ⟨reg', fs', h1, h2, h3⟩ := ih h
      exact ⟨reg', fs', by simp [h1], h2, h3⟩

/-- Two fields overlap exactly when some bit lies in both (R64 WF_DISJOINT). -/
theorem FieldDesc.overlaps_eq_false (a b : FieldDesc) : a.overlaps b = false ↔
    ∀ i, ¬ (a.offset ≤ i ∧ i < a.offset + a.width ∧ b.offset ≤ i ∧ i < b.offset + b.width) := by
  rw [FieldDesc.overlaps, decide_eq_false_iff_not]
  constructor
  · intro h i hi
    omega
  · intro h hlt
    exact h (max a.offset b.offset) (by omega)

/-- The same, where they do overlap. -/
theorem FieldDesc.overlaps_eq_true (a b : FieldDesc) : a.overlaps b = true ↔
    ∃ i, (a.offset ≤ i ∧ i < a.offset + a.width) ∧ b.offset ≤ i ∧ i < b.offset + b.width := by
  rw [← Bool.not_eq_false, FieldDesc.overlaps_eq_false]
  simp only [not_forall, not_not, and_assoc]

/-- A lookup that finds a list found it in an entry of the schema (R106). -/
theorem Schema.mem_of_lookup {sch : Schema} {reg : RegId} {fs : List FieldDesc}
    (h : sch.lookup reg = some fs) : (reg.toNat, fs) ∈ sch := by
  unfold Schema.lookup at h
  induction sch with
  | nil => simp at h
  | cons p rest ih =>
    obtain ⟨k, gs⟩ := p
    rw [List.lookup_cons] at h
    split at h
    · rename_i hk
      simp_all
    · simp [ih h]

/-- FIDX_W is wide enough for every field index (R11). -/
theorem le_two_pow_fidxWidthFrom (maxFields fuel w : Nat) (h : maxFields ≤ 2 ^ (fuel + w)) :
    maxFields ≤ 2 ^ fidxWidthFrom maxFields fuel w := by
  induction fuel generalizing w with
  | zero => simpa [fidxWidthFrom] using h
  | succ n ih =>
    rw [fidxWidthFrom]
    split
    · assumption
    · exact ih (w + 1) (by rwa [Nat.add_right_comm, Nat.add_assoc] at h)

/-- `MAX_FIELDS <= 2^FIDX_W` (R11). -/
theorem Config.maxFields_le (cfg : Config) : cfg.maxFields ≤ 2 ^ cfg.fidxW := by
  refine le_two_pow_fidxWidthFrom _ _ _ ?_
  have := Nat.lt_two_pow_self (n := cfg.maxFields + 2)
  omega

/-- When a transform covers every value of a width (R64 WF_TOTAL). -/
theorem Transform.totalOn_iff (width : Nat) (x : Transform) :
    x.totalOn width = true ↔ ∀ labels, x = .lut labels → 2 ^ width ≤ labels.length := by
  cases x <;> simp [Transform.totalOn]

namespace Machine

/-- What a started block may rely on: every entry passed every check (R64, R154). -/
theorem Startable.meets {cfg : Config} (h : Startable cfg) (check : SchemaCheck)
    {p : Nat × List FieldDesc} (hp : p ∈ cfg.schema) : EntryMeets cfg.maxFields p.1 p.2 check := by
  unfold Startable Config.problem at h
  split at h
  · cases h
  · simp only [Option.orElse_eq_none, Schema.idsProblem, Schema.widthProblem, Schema.rangeProblem,
      Schema.totalProblem, Schema.disjointProblem, Schema.countProblem,
      Schema.fieldProblem_eq_none, Schema.entryProblem_eq_none, firstBadField_eq_none,
      firstBadField_overlaps_eq_none, FieldDesc.overlaps_eq_false] at h
    obtain ⟨h1, h2, h3, h4, h5, h6⟩ := h
    cases check with
    | wfIds => simpa [EntryMeets] using h1 p hp
    | wfWidth => exact fun d hd => Nat.one_le_iff_ne_zero.mpr (by simpa using h2 p hp d hd)
    | wfRange => exact fun d hd => by simpa using h3 p hp d hd
    | wfTotal => exact fun d hd => (Transform.totalOn_iff _ _).mp (by simpa using h4 p hp d hd)
    | wfDisjoint => exact (h5 p hp).2
    | wfCount => simpa [EntryMeets] using h6 p hp

/-- A started block has a MAX_FIELDS of at least 3 (R11). -/
theorem Startable.three_le_maxFields {cfg : Config} (h : Startable cfg) : 3 ≤ cfg.maxFields := by
  unfold Startable Config.problem at h
  split at h
  · cases h
  · omega

/-- A field the flush reaches stands in an entry of the schema (R106). -/
theorem entry_of_mem_fieldList {sch : Schema} {reg : RegId} {d : FieldDesc}
    (h : d ∈ fieldList sch reg) : ∃ fs, (reg.toNat, fs) ∈ sch ∧ sch.lookup reg = some fs ∧ d ∈ fs := by
  unfold fieldList at h
  cases hl : sch.lookup reg with
  | none => simp [hl] at h
  | some fs => exact ⟨fs, Schema.mem_of_lookup hl, rfl, by simpa [hl] using h⟩

/-- A field the flush of a started block reaches has a width, lies in the word, and has a text for
every value (R64). -/
theorem Startable.field {cfg : Config} (h : Startable cfg) {reg : RegId} {d : FieldDesc}
    (hd : d ∈ fieldList cfg.schema reg) :
    1 ≤ d.width ∧ d.offset + d.width ≤ 32 ∧
      ∀ labels, d.xform = .lut labels → 2 ^ d.width ≤ labels.length := by
  obtain ⟨fs, h1, _, h2⟩ := entry_of_mem_fieldList hd
  exact ⟨h.meets .wfWidth h1 d h2, h.meets .wfRange h1 d h2, h.meets .wfTotal h1 d h2⟩

/-- A started block's registers have at most MAX_FIELDS fields (R64 WF_COUNT). -/
theorem Startable.fieldList_length {cfg : Config} (h : Startable cfg) (reg : RegId) :
    (fieldList cfg.schema reg).length ≤ cfg.maxFields := by
  unfold fieldList
  cases hl : cfg.schema.lookup reg with
  | none => simp
  | some fs => exact h.meets .wfCount (Schema.mem_of_lookup hl)

/-- An unknown register has no fields to loop over (R106). -/
theorem fieldList_of_unknown {sch : Schema} {reg : RegId} (h : regKnown sch reg = false) :
    fieldList sch reg = [] := by
  unfold regKnown at h
  unfold fieldList
  simp_all

end Machine

end Sys2Proof
end

