-- ==== Sys2Proof/Laws/Step.lean ====
section
/-! SUPPORT. What the meanings, an edge and a step can do, said once (inversion lemmas), and what EXTRACT and the field loop read. -/

namespace Sys2Proof.Machine

/-- Two states with the same configuration, slots and count: all that EXTRACT and the field loop read. -/
structure SameFrame (s t : State) : Prop where
  cfg   : s.cfg = t.cfg
  slots : s.slots = t.slots
  cnt   : s.cnt = t.cnt

theorem SameFrame.readSlot {s t : State} (h : SameFrame s t) (j : Nat) :
    s.readSlot j = t.readSlot j := by
  simp [State.readSlot, h.slots]

theorem SameFrame.placeValue {s t : State} (h : SameFrame s t) (offset width : Nat) :
    s.placeValue offset width = t.placeValue offset width := by
  induction width generalizing offset with
  | zero => rfl
  | succ n ih => simp [State.placeValue, State.srVal, h.readSlot, ih]

theorem SameFrame.span {s t : State} (h : SameFrame s t) (offset width : Nat) :
    s.span offset width = t.span offset width := by
  simp [State.span, State.srStart, State.srEnd, h.readSlot, h.cfg]

theorem SameFrame.canExtract {s t : State} (h : SameFrame s t) (offset width : Nat) :
    s.canExtract offset width = t.canExtract offset width := by
  simp [State.canExtract, State.filled, h.cnt]

theorem SameFrame.extract {s t : State} (h : SameFrame s t) (offset width : Nat) :
    s.extract offset width = t.extract offset width := by
  simp [State.extract, h.canExtract, h.placeValue, h.span, h.cnt]

theorem SameFrame.fieldEmissions {s t : State} (h : SameFrame s t) (reg : RegId) (k : Nat)
    (fs : List FieldDesc) : s.fieldEmissions reg k fs = t.fieldEmissions reg k fs := by
  induction fs generalizing k with
  | nil => rfl
  | cons d rest ih => simp [State.fieldEmissions, h.extract, ih]

theorem SameFrame.frameEmissions {s t : State} (h : SameFrame s t) :
    s.frameEmissions = t.frameEmissions := by
  simp [State.frameEmissions, h.extract, h.fieldEmissions, h.cfg]

/-- The field loop of an unknown register is empty, so the frame's emissions are the SEL record and
the loop over `fieldList` in every case (R106, R119). -/
theorem frameEmissions_eq (s : State) :
    s.frameEmissions = (s.extract selOffset selWidth).bind fun x =>
      (s.fieldEmissions (x.value.setWidth 4) 0
        (fieldList s.cfg.schema (x.value.setWidth 4))).map fun es =>
          selEmission (x.value.setWidth 4) x.startPos x.endPos :: es := by
  unfold State.frameEmissions
  cases s.extract selOffset selWidth with
  | error f => rfl
  | ok x =>
    simp only [bind, Except.bind]
    by_cases h : regKnown s.cfg.schema (x.value.setWidth 4) = true
    · simp only [h, if_true]
      cases s.fieldEmissions (x.value.setWidth 4) 0
        (fieldList s.cfg.schema (x.value.setWidth 4)) <;> rfl
    · simp only [h, fieldList_of_unknown (by simpa using h)]
      rfl

/-- LEN_OK is the count test of R101. -/
@[simp] theorem lenOk_iff (s : State) : lenOk s = true ↔ s.cnt = 32 := by
  simp [lenOk]

/-- CS 1 as one equation: the frame's emissions, where the length check passes, then the cleared block. -/
theorem execCs1_eq (s : State) :
    execCs1 s = raise ((if s.cnt = 32 then s.frameEmissions else .ok []).map fun es =>
      { s.cleared with out := s.out ++ es }) := by
  have h : ({ s with fsm := .flushing } : State).frameEmissions = s.frameEmissions :=
    SameFrame.frameEmissions ⟨rfl, rfl, rfl⟩
  by_cases hc : s.cnt = 32
  · have hl : lenOk { s with fsm := .flushing } = true := (lenOk_iff _).mpr hc
    simp only [execCs1, bind, Except.bind, hl, if_true, h, if_pos hc]
    cases s.frameEmissions <;> rfl
  · have hl : lenOk { s with fsm := .flushing } = false := by simpa [lenOk] using hc
    simp only [execCs1, bind, Except.bind, hl, if_neg hc]
    simp [Except.map, State.emit, State.endFrame, State.clear, State.toAccumulating, State.cleared]

/-- Everything a CS 1 that completes can do. -/
theorem execCs1_cases {s t : State} (h : exec .cs1 s = .next t) :
    ∃ es, t = { s.cleared with out := s.out ++ es } ∧
      (s.cnt = 32 ∧ s.frameEmissions = .ok es ∨ s.cnt ≠ 32 ∧ es = []) := by
  replace h : execCs1 s = .next t := h
  rw [execCs1_eq, raise_eq_next] at h
  split at h
  next hc =>
    cases he : s.frameEmissions with
    | ok es => exact ⟨es, by simpa [he, Except.map] using h.symm, .inl ⟨hc, rfl⟩⟩
    | error f => simp [he, Except.map] at h
  next hc => exact ⟨[], by simpa [Except.map] using h.symm, .inr ⟨hc, rfl⟩⟩

/-- Everything an event that completes can do: shift in, end the frame, or nothing. -/
theorem exec_cases {i : Instr} {s t : State} (h : exec i s = .next t) :
    (∃ v a b, i = .bit v a b ∧ t = s.shiftIn ⟨v, a, b⟩) ∨
    (i = .cs1 ∧ ∃ es, t = { s.cleared with out := s.out ++ es } ∧
      (s.cnt = 32 ∧ s.frameEmissions = .ok es ∨ s.cnt ≠ 32 ∧ es = [])) ∨
    ((i = .cs0 ∨ i = .evk2 ∨ i = .evk3) ∧ t = s) := by
  cases i with
  | bit v a b => exact .inl ⟨v, a, b, rfl, (Host.Outcome.next.inj h).symm⟩
  | cs1 => exact .inr (.inl ⟨rfl, execCs1_cases h⟩)
  | cs0 => exact .inr (.inr ⟨by simp, (Host.Outcome.next.inj h).symm⟩)
  | evk2 => exact .inr (.inr ⟨by simp, (Host.Outcome.next.inj h).symm⟩)
  | evk3 => exact .inr (.inr ⟨by simp, (Host.Outcome.next.inj h).symm⟩)

/-- No event is refused. -/
theorem exec_ne_refused (i : Instr) (s : State) (r : Refusal) : exec i s ≠ .refused r := by
  cases i with
  | cs1 => exact raise_ne_refused _ r
  | bit v a b => simp [exec, execBit]
  | cs0 => simp [exec, execCs0]
  | evk2 => simp [exec, execEvk2]
  | evk3 => simp [exec, execEvk3]

/-- Everything a delivery that completes can do: hand over the record due, and move on or end. -/
theorem deliver_cases {s t : State} (h : s.deliver = .ok t) :
    ∃ r e, s.fl = some r ∧ s.dueEmission r = .ok e ∧
      (r.afterDelivery s.cfg.schema = none ∧ t = { s.cleared with out := s.out ++ [e] } ∨
        ∃ r', r.afterDelivery s.cfg.schema = some r' ∧
          t = { s with out := s.out ++ [e], fl := some r' }) := by
  unfold State.deliver at h
  cases hr : s.fl with
  | none => simp [hr] at h
  | some r =>
    cases he : s.dueEmission r with
    | error f => simp [hr, he, bind, Except.bind] at h
    | ok e =>
      refine ⟨r, e, rfl, he, ?_⟩
      simp only [hr, he, bind, Except.bind] at h
      split at h
      · rename_i hn
        exact .inl ⟨hn, (Except.ok.inj h).symm⟩
      · rename_i r' hn
        exact .inr ⟨r', hn, (Except.ok.inj h).symm⟩

/-- Everything an edge that completes can do. -/
theorem clockEdge_cases {p : Pins} {s t : State} (h : clockEdge p s = .next t) :
    (p.rst = true ∧ t = s.hardReset) ∨
    (p.rst = false ∧ t = s) ∨
    (p.rst = false ∧ s.fsm = .accumulating ∧ p.inValid = true ∧
      ((∃ v a b, decode s.cfg.posW p.inWord = .bit v a b ∧ t = s.shiftIn ⟨v, a, b⟩) ∨
        (decode s.cfg.posW p.inWord = .cs1 ∧ s.cnt = 32 ∧ s.startFlush = .ok t) ∨
        (decode s.cfg.posW p.inWord = .cs1 ∧ s.cnt ≠ 32 ∧ t = s.clear))) ∨
    (p.rst = false ∧ s.fsm = .flushing ∧ p.annReady = true ∧ s.deliver = .ok t) := by
  unfold clockEdge at h
  cases hr : p.rst with
  | true => simp only [hr, if_true, Host.Outcome.next.injEq] at h; exact .inl ⟨rfl, h.symm⟩
  | false =>
    simp only [hr, Bool.false_eq_true, if_false] at h
    cases hf : s.fsm with
    | flushing =>
      simp only [hf] at h
      split at h
      · rename_i ha
        exact .inr (.inr (.inr ⟨rfl, rfl, ha, raise_eq_next.mp h⟩))
      · exact .inr (.inl ⟨rfl, (Host.Outcome.next.inj h).symm⟩)
    | accumulating =>
      simp only [hf] at h
      split at h
      · rename_i hv
        unfold acceptEvent at h
        split at h
        · rename_i v a b hd
          exact .inr (.inr (.inl ⟨rfl, rfl, hv, .inl ⟨v, a, b, hd, (Host.Outcome.next.inj h).symm⟩⟩))
        · exact .inr (.inl ⟨rfl, (Host.Outcome.next.inj h).symm⟩)
        · rename_i hd
          split at h
          · rename_i hc
            exact .inr (.inr (.inl ⟨rfl, rfl, hv, .inr (.inl ⟨hd, (lenOk_iff s).mp hc, raise_eq_next.mp h⟩)⟩))
          · rename_i hc
            exact .inr (.inr (.inl ⟨rfl, rfl, hv, .inr (.inr ⟨hd, fun hh => hc ((lenOk_iff s).mpr hh),
              (Host.Outcome.next.inj h).symm⟩)⟩))
        · exact .inr (.inl ⟨rfl, (Host.Outcome.next.inj h).symm⟩)
        · exact .inr (.inl ⟨rfl, (Host.Outcome.next.inj h).symm⟩)
      · exact .inr (.inl ⟨rfl, (Host.Outcome.next.inj h).symm⟩)

/-- No edge is refused. -/
theorem clockEdge_ne_refused (p : Pins) (s : State) (r : Refusal) : clockEdge p s ≠ .refused r := by
  unfold clockEdge
  split
  · simp
  · split
    · split
      · unfold acceptEvent
        split <;> (try split) <;> first | exact raise_ne_refused _ r | simp [execBit, execCs0, execEvk2, execEvk3]
      · simp
    · split
      · exact raise_ne_refused _ r
      · simp

/-- What a state fetches, by its inputs. -/
theorem fetch_cases (s : State) :
    (s.fetch = .hold) ∨
    (∃ ev rest, s.inputs = .event ev :: rest ∧ s.fsm = .accumulating ∧
      s.fetch = .event (decode s.cfg.posW ev) { s with inputs := rest }) ∨
    (∃ p rest, s.inputs = .edge p :: rest ∧ s.fetch = .edge p { s with inputs := rest }) := by
  unfold State.fetch inReady
  split
  · simp
  · rename_i ev rest hi
    by_cases hf : s.fsm = .accumulating <;> simp [hi, hf]
  · rename_i p rest hi
    simp [hi]

/-- Everything a step that completes can do. -/
theorem step_cases {s t : State} (h : step s = .next t) :
    t = s ∨
    (∃ ev rest, s.inputs = .event ev :: rest ∧ s.fsm = .accumulating ∧
      exec (decode s.cfg.posW ev) { s with inputs := rest } = .next t) ∨
    (∃ p rest, s.inputs = .edge p :: rest ∧ clockEdge p { s with inputs := rest } = .next t) := by
  unfold step at h
  split at h
  · cases h
  · rcases fetch_cases s with hf | ⟨ev, rest, hi, hs, hf⟩ | ⟨p, rest, hi, hf⟩
    · rw [hf] at h; exact .inl (Host.Outcome.next.inj h).symm
    · rw [hf] at h; exact .inr (.inl ⟨ev, rest, hi, hs, h⟩)
    · rw [hf] at h; exact .inr (.inr ⟨p, rest, hi, h⟩)

end Sys2Proof.Machine
end

