-- ==== Sys2Proof/Tests/Slice0.lean ====
section
/-! SUPPORT. Tests with expected results from spec/95_test_vectors.md (the vector's name stands in each docstring), and for each statement of Certificates/Slice0/Obligations.lean that has hypotheses a witness that meets them. -/

namespace Sys2Proof.Tests

open Sys2Proof Sys2Proof.Machine

/-! ### Small states -/

/-- The state an outcome goes to. -/
def nextOf : Host.Outcome State Fault Refusal → Option State
  | .next s => some s
  | .fault _ => none
  | .refused _ => none

/-- The fault an outcome stops with. -/
def faultOf : Host.Outcome State Fault Refusal → Option Fault
  | .next _ => none
  | .fault f => some f
  | .refused _ => none

/-- The refusal an outcome gives. -/
def refusalOf : Host.Outcome State Fault Refusal → Option Refusal
  | .next _ => none
  | .fault _ => none
  | .refused r => some r

/-- TS with SPAN_MODE = TEMPORAL. -/
def temporal : Config :=
  { Config.testBench with spanMode := .temporal }

/-- A block that has received the 32 bits of `WORD32 w, 0`: slot `j` holds `start = 62 - 2j`,
`end = 63 - 2j` (95_test_vectors.md section 0). -/
def held (cfg : Config) (w : Word32) (inputs : List Input := []) : State :=
  { State.resetWith cfg with
    inputs := inputs
    cnt := 32
    slots := Vector.ofFn fun j : Fin 32 => some ⟨w.getLsb j, 62 - 2 * j.val, 63 - 2 * j.val⟩ }

/-- A block with `n` bits received, all of them 1. -/
def heldBits (n : Nat) : State :=
  { State.resetWith Config.testBench with
    cnt := BitVec.ofNat 6 n
    slots := Vector.ofFn fun j : Fin 32 => if j.val < n then some ⟨true, j.val, j.val + 1⟩ else none }

/-- `held` while it is being flushed, with a given record due. -/
def flushing (w : Word32) (idx : Nat) (phase : FlushPhase) (inputs : List Input := []) : State :=
  { held Config.testBench w inputs with fsm := .flushing, fl := some ⟨w, w.setWidth 4, idx, phase⟩ }

/-- TS with register `reg` set to these fields. -/
def withEntry (reg : Nat) (fs : List FieldDesc) (maxFields : Nat) : Config :=
  { Config.testBench with schema := (reg, fs) :: Config.testSchema, maxFields := maxFields }

/-- The labels a step from `held` adds to the output. -/
def labelsOf (cfg : Config) (w : Word32) : Option (List String) :=
  (nextOf (exec .cs1 (held cfg w))).map fun t => t.out.map Emission.label

/-- The spans a step from `held` adds to the output. -/
def spansOf (cfg : Config) (w : Word32) : Option (List (Nat × Nat)) :=
  (nextOf (exec .cs1 (held cfg w))).map fun t => t.out.map fun e => (e.record.startPos, e.record.endPos)

/-- The annotation words a step from `held` adds to the output, at POS_W = 16 and FIDX_W = 2. -/
def wordsOf (cfg : Config) (w : Word32) : Option (List Nat) :=
  (nextOf (exec .cs1 (held cfg w))).map fun t => t.out.map fun e => e.record.toWord 16 2

/-! ### Decoding: words written out from R56 -/

/-- E.4 bit by bit: `e` = 6, `s` = 5, `v` = 0, `kind` = 0. -/
theorem test_decode_bit :
    decode 16 0b0000000000000110_0000000000000101_0_00 = .bit false 5 6 := by decide

/-- Row E.4's neighbour with `v` = 1 and unequal positions. -/
theorem test_decode_bit_value :
    decode 16 0b0000000000000001_1000000000000000_1_00 = .bit true 32768 1 := by decide

/-- E.5 and E.8: `v` = 0, `kind` = 1, the positions ignored. -/
theorem test_decode_cs0 : decode 16 0b0_01 = .cs0 ∧
    decode 16 0b1111111111111111_1111111111111111_0_01 = .cs0 := by decide

/-- E.6 and E.7: `v` = 1, `kind` = 1, the positions ignored. -/
theorem test_decode_cs1 : decode 16 0b1_01 = .cs1 ∧
    decode 16 0b1111111111111111_1111111111111111_1_01 = .cs1 := by decide

/-- E.9 and E.10: `kind` = 2, every other bit ignored. -/
theorem test_decode_evk2 : decode 16 0b0_10 = .evk2 ∧
    decode 16 0b1111111111111111_1111111111111111_1_10 = .evk2 := by decide

/-- E.11: `kind` = 3. -/
theorem test_decode_evk3 : decode 16 0b0_11 = .evk3 ∧ decode 16 0b1_11 = .evk3 := by decide

/-- P1, rows 11 and 33: words of the worked program. -/
theorem test_encode : encode 16 (.bit true 20 21) = 0x000A800A4 ∧ encode 16 .cs1 = 0x000000005 := by
  decide

/-- The opcode table's rows, in whole bytes. -/
theorem test_decodeTableWord : decodeTableWord 8 0 = some (.bit false 0 0) ∧
    decodeTableWord 8 1 = some .cs0 ∧ decodeTableWord 8 5 = some .cs1 ∧
    decodeTableWord 8 2 = some .evk2 ∧ decodeTableWord 8 3 = some .evk3 := by decide

/-! ### WellFormed: a term each check refuses -/

/-- A start position of 17 bits has no event word at POS_W = 16. -/
theorem smoke_startFits : (Instr.bit true 65536 0).startFits 16 = false ∧
    (Instr.bit true 65536 0).wf 16 = false := by decide

/-- An end position of 17 bits has no event word at POS_W = 16. -/
theorem smoke_endFits : (Instr.bit true 0 65536).endFits 16 = false ∧
    (Instr.bit true 0 65536).wf 16 = false := by decide

/-- W.5: an entry for id 16, beside id 15. -/
theorem smoke_wfIds : (withEntry 16 [] 4).problem = some (.schema .wfIds 16 none) ∧
    (withEntry 15 [] 4).problem = none := by decide

/-- W.2: a field (4, 0), beside (4, 1). -/
theorem smoke_wfWidth :
    (withEntry 6 [⟨"F", 4, 0, .lut ["a", "b"]⟩] 4).problem = some (.schema .wfWidth 6 (some 0)) ∧
    (withEntry 6 [⟨"F", 4, 1, .lut ["a", "b"]⟩] 4).problem = none := by decide

/-- W.1: a field (30, 4), beside (28, 4). -/
theorem smoke_wfRange :
    (withEntry 6 [⟨"F", 30, 4, .identity⟩] 4).problem = some (.schema .wfRange 6 (some 0)) ∧
    (withEntry 6 [⟨"F", 28, 4, .identity⟩] 4).problem = none := by decide

/-- W.3: three labels for a field of width 2, beside four. -/
theorem smoke_wfTotal :
    (withEntry 6 [⟨"F", 4, 2, .lut ["a", "b", "c"]⟩] 4).problem = some (.schema .wfTotal 6 (some 0)) ∧
    (withEntry 6 [⟨"F", 4, 2, .lut ["a", "b", "c", "d"]⟩] 4).problem = none := by decide

/-- W.4: fields (4, 8) and (10, 4), beside (4, 8) and (12, 4). -/
theorem smoke_wfDisjoint :
    (withEntry 2 [⟨"F", 4, 8, .identity⟩, ⟨"G", 10, 4, .identity⟩] 4).problem =
      some (.schema .wfDisjoint 2 (some 1)) ∧
    (withEntry 2 [⟨"F", 4, 8, .identity⟩, ⟨"G", 12, 4, .identity⟩] 4).problem = none := by decide

/-- `n` one-bit fields. -/
def oneBitFields (n : Nat) : List FieldDesc :=
  (List.range n).map fun k => ⟨"F", k, 1, .identity⟩

/-- W.6: five fields at MAX_FIELDS = 4, beside four. -/
theorem smoke_wfCount :
    (withEntry 2 (oneBitFields 5) 4).problem = some (.schema .wfCount 2 none) ∧
    (withEntry 2 (oneBitFields 4) 4).problem = none := by decide

/-- R11: MAX_FIELDS is at least 3. -/
theorem smoke_maxFields : (withEntry 2 [] 2).problem = some (.maxFields 2) ∧
    (withEntry 2 [] 3).problem = none := by decide

/-- W.7: TS is accepted, its field (0, 32) overlapping the selector. -/
theorem startable_testBench : Startable Config.testBench := by
  show Config.testBench.problem = none
  decide

/-- TS is accepted in both span modes. -/
theorem startable_temporal : Startable temporal := by
  show temporal.problem = none
  decide

/-! ### BIT, CS 0, EVK 2, EVK 3 -/

/-- A.3's second BIT, on the state of A.2: slot 0 is the newest, slot 1 the one before. -/
theorem test_bit_shifts :
    (nextOf (exec (.bit false 2 3) ((State.resetWith Config.testBench).shiftIn ⟨true, 0, 1⟩))).map
      (fun t => (t.cnt, t.slots[0], t.slots[1], t.slots[2])) =
    some (2, some ⟨false, 2, 3⟩, some ⟨true, 0, 1⟩, none) := by decide

/-- A.5 and A.6: from 32 the count is OVER and stays there, and the oldest bit is dropped. -/
theorem test_bit_over :
    (nextOf (exec (.bit true 64 65) (held Config.testBench 0))).map
      (fun t => (t.cnt, (t.shiftIn ⟨true, 66, 67⟩).cnt, t.slots[31])) =
    some (33, 33, some ⟨false, 2, 3⟩) := by decide

/-- A.7: CS 0 leaves five bits as they were. -/
theorem test_cs0 : (nextOf (exec .cs0 (heldBits 5))).map (fun t => (t.cnt, t.slots[4])) =
    some (5, some ⟨true, 4, 5⟩) := by decide

/-- A.7: EVK 2 leaves five bits as they were. -/
theorem test_evk2 : (nextOf (exec .evk2 (heldBits 5))).map (fun t => (t.cnt, t.slots[4])) =
    some (5, some ⟨true, 4, 5⟩) := by decide

/-- A.9: EVK 3 is no bit. -/
theorem test_evk3 : (nextOf (exec .evk3 (heldBits 31))).map (fun t => t.cnt) = some 31 := by decide

/-! ### CS 1 -/

/-- F.13: the labels of L1.5 in order, and the annotation words of 95_test_vectors.md. -/
theorem test_cs1_register0 :
    labelsOf Config.testBench 0x00300640 =
      some ["Register: 0", "INT: 100", "Prescaler: 8/9", "AutoCal: Enabled"] ∧
    wordsOf Config.testBench 0x00300640 =
      some [0x1C801F0000000000, 0x0C801B0000003201, 0x0B800B00000000A1, 0x0A800A00000000C1] := by
  decide

/-- F.17: width 32, and the largest numeral that occurs. -/
theorem test_cs1_full :
    labelsOf Config.testBench 0xFFFFFFFC = some ["Register: 12", "Full: 4294967292"] ∧
    spansOf Config.testBench 0xFFFFFFFC = some [(62, 57), (62, 1)] := by decide

/-- F.18 and F.21: the spans of TEMPORAL. -/
theorem test_span_temporal :
    spansOf temporal 0xFFFFFFFC = some [(56, 63), (0, 63)] ∧
    spansOf temporal 0x00300640 = some [(56, 63), (24, 55), (22, 23), (20, 21)] := by decide

/-- F.19: declaration order decides, not the offset. -/
theorem test_field_order :
    labelsOf Config.testBench 0xFFFFFFF1 = some ["Register: 1", "Hi: 1", "Wide: 134217727"] ∧
    spansOf Config.testBench 0xFFFFFFF1 = some [(62, 57), (0, 1), (54, 3)] := by decide

/-- F.1 and F.7: an unknown register and a label with a sign. -/
theorem test_labels :
    labelsOf Config.testBench 0x0000000D = some ["Register: 13"] ∧
    labelsOf Config.testBench 0x00000026 = some ["Register: 6", "RF Output Power: +2dBm"] := by decide

/-- F.9 and F.10: 31 bits and OVER are discarded, and the buffer is empty after. -/
theorem test_cs1_discards :
    (nextOf (exec .cs1 (heldBits 31))).map (fun t => (t.out, t.cnt, t.slots[0])) = some ([], 0, none) ∧
    (nextOf (exec .cs1 (heldBits 33))).map (fun t => (t.out, t.cnt, t.slots[0])) = some ([], 0, none) := by
  decide

/-- R112: the document's view of F.1, but for its two free labels. -/
theorem test_document_view :
    (nextOf (exec .cs1 (held Config.testBench 0x0000000D))).map (fun t => t.documentStream.map
      fun d => (d.startPos, d.endPos, d.category)) = some [(62, 57, "register write")] ∧
    (nextOf (exec .cs1 (held Config.testBench 0x0000000D))).map (fun t => t.documentStream.map
      fun d => (d.labels.length, d.labels.head?)) = some [(3, some "Register: 13")] := by decide

/-! ### The model faults of R131, in states no run reaches -/

/-- Code 2: the precondition of EXTRACT. -/
theorem test_faultExtract :
    (held Config.testBench 0).extract 30 4 = .error (.extract 30 4 32) ∧
    (heldBits 3).extract 0 4 = .error (.extract 0 4 3) ∧
    (held Config.testBench 0).extract 4 0 = .error (.extract 4 0 32) := ⟨rfl, rfl, rfl⟩

/-- Code 3: a slot that holds no value; nothing of the step is kept. -/
theorem test_faultUnwritten :
    faultOf (exec .cs1 { heldBits 2 with cnt := 32 }) = some (.unwritten 2) := by decide

/-- Code 4: a table too short, under a schema that W.3 refuses. -/
theorem test_faultDomain :
    faultOf (exec .cs1 (held (withEntry 6 [⟨"F", 4, 2, .lut ["a", "b", "c"]⟩] 4) 0x36)) =
      some (.domain 6 0 3) := by decide

/-! ### Steps, and the cycle level -/

/-- A step takes the next event word, and a schema that fails a check runs nothing. -/
theorem test_step :
    (nextOf (step { State.reset with inputs := [.event 0x000A800A4, .event 5] })).map
      (fun t => (t.cnt, t.slots[0], t.inputs)) = some (1, some ⟨true, 20, 21⟩, [.event 5]) ∧
    refusalOf (step (State.resetWith (withEntry 16 [] 4))) = some (.schema .wfIds 16 none) := by
  decide

/-- A placed word runs as the first event after reset, and with nothing placed the block holds. -/
theorem test_withFetchWord :
    (nextOf (step (State.reset.withFetchWord 8 4))).map (fun t => (t.cnt, t.inputs)) = some (1, []) ∧
    nextOf (step State.reset) = some State.reset := by decide

/-- Pins with nothing valid and nothing ready. -/
def idle : Pins := ⟨false, false, 0, false⟩

/-- T.1: the edge that accepts CS 1 latches the frame word and starts the flush. -/
theorem test_flush_starts :
    (nextOf (clockEdge ⟨false, true, 5, true⟩ (held Config.testBench 0x00300640))).map
      (fun t => (t.fsm, t.fl, t.out, t.cnt)) =
    some (.flushing, some ⟨0x00300640, 0, 0, .selector⟩, [], 32) := by decide

/-- T.1: at the last of its four edges the AutoCal record is delivered and the block accepts again. -/
theorem test_flush_ends :
    annWord (flushing 0x00300640 2 .fields) = .ok 0x0A800A00000000C1 ∧
    (nextOf (clockEdge ⟨false, true, 4, true⟩ (flushing 0x00300640 2 .fields))).map
      (fun t => (inReady false t, t.fl, t.out.map Emission.label, t.cnt)) =
    some (true, none, ["AutoCal: Enabled"], 0) := ⟨rfl, by decide⟩

/-- T.2: while `ann_ready = 0` the record is held, and a presented BIT is not accepted. -/
theorem test_flush_waits :
    nextOf (clockEdge ⟨false, true, 4, false⟩ (flushing 0x00300640 0 .selector)) =
      some (flushing 0x00300640 0 .selector) ∧
    annWord (flushing 0x00300640 0 .selector) = .ok 0x1C801F0000000000 := ⟨by decide, rfl⟩

/-- T.3: a reset in the middle of a flush delivers nothing more and gives `s0`. -/
theorem test_flush_reset :
    nextOf (clockEdge ⟨true, false, 0, true⟩ (flushing 0x00300640 0 .fields)) =
      some (State.resetWith Config.testBench) := by decide

/-- T.4: reset wins over a presented BIT. -/
theorem test_reset_wins :
    nextOf (clockEdge ⟨true, true, 4, false⟩ (heldBits 5)) = some (State.resetWith Config.testBench) := by
  decide

/-- R160: a flush of an unknown register ends with its selector record. -/
theorem test_flush_unknown :
    (nextOf (clockEdge ⟨false, false, 0, true⟩ (flushing 0x0000000D 0 .selector))).map
      (fun t => (t.fsm, t.out.map Emission.label)) = some (.accumulating, ["Register: 13"]) := by decide

/-- R11: FIDX_W at its least value, at the last MAX_FIELDS of a width, and past it. -/
theorem test_fidxW : (withEntry 2 [] 3).fidxW = 2 ∧ (withEntry 2 [] 4).fidxW = 2 ∧
    (withEntry 2 [] 5).fidxW = 3 := by decide

/-! ### The notation of R69 and R70 -/

/-- The lines of R69, with a comment, hexadecimal, and two lines that are none. -/
theorem test_readLine :
    readLine "BIT 1, 0x14, 21    ; a bit" = some [.bit true 20 21] ∧ readLine "CS 1" = some [.cs1] ∧
    readLine "EVK 3" = some [.evk3] ∧ readLine "EVK 4" = none ∧ readLine "BIT 2, 0, 1" = none := by
  decide

/-- P1: the source line expands to 34 events, the eleventh bit of them the first 1. -/
theorem test_frame_line :
    (readLine "FRAME 0x00300640, 0").map (fun is => (is.length, is[0]?, is[11]?, is[33]?)) =
      some (34, some .cs0, some (.bit true 20 21), some .cs1) := by decide

/-! ### States that meet the hypotheses of the statements -/

/-- `held` is a complete frame that holds its word. -/
theorem held_ready (cfg : Config) (w : Word32) (is : List Input) :
    (held cfg w is).FrameReady ∧ (held cfg w is).HoldsWord w := by
  refine ⟨⟨rfl, fun j => by simp [held]⟩, fun j hj => ?_⟩
  simp [held, State.bitAt, hj, BitVec.getLsb_eq_getElem, BitVec.getLsbD_eq_getElem]

/-- `held` meets the invariant, whatever its word. -/
theorem held_inv (w : Word32) (is : List Input) : (held Config.testBench w is).Inv where
  cntOk := by simp [State.CntOk, held]
  slotsOk := fun j => by simp [held, State.filled, j.isLt]
  tagsFit := fun j b h => by
    have hb : ⟨w.getLsb j, 62 - 2 * j.val, 63 - 2 * j.val⟩ = b := by simpa [held] using h
    subst hb
    have : 62 - 2 * j.val < 2 ^ 16 ∧ 63 - 2 * j.val < 2 ^ 16 := by omega
    exact ⟨decide_eq_true this.1, decide_eq_true this.2⟩
  flushOk := trivial

/-- `flushing` meets the invariant while its selector record is due. -/
theorem flushing_inv (w : Word32) (is : List Input) : (flushing w 0 .selector is).Inv where
  cntOk := (held_inv w is).cntOk
  slotsOk := (held_inv w is).slotsOk
  tagsFit := (held_inv w is).tagsFit
  flushOk := ⟨rfl, frameWord_of_word (held_ready Config.testBench w is).1.2
    (held_ready Config.testBench w is).2, rfl, rfl⟩

/-- The invariant at a flush's last field record: `fl_idx` at the end of its range. -/
theorem flushing_last_inv (is : List Input) : (flushing 0x00300640 2 .fields is).Inv where
  cntOk := (held_inv 0x00300640 is).cntOk
  slotsOk := (held_inv 0x00300640 is).slotsOk
  tagsFit := (held_inv 0x00300640 is).tagsFit
  flushOk := by
    have h : 2 < (fieldList Config.testSchema 0).length := by decide
    exact ⟨rfl, frameWord_of_word (held_ready Config.testBench 0x00300640 is).1.2
      (held_ready Config.testBench 0x00300640 is).2, rfl, h⟩

/-- TS satisfies R117 and R118, as 95_test_vectors.md 0.1 says. -/
theorem testSchema_isReference : Config.testSchema.IsReference where
  domain := by decide
  reserved := by decide
  register0 := ⟨_, _, _, rfl, by decide⟩
  register6 := ⟨_, rfl, _, List.mem_singleton.mpr rfl, by decide⟩

/-- The document's buffer after the 32 bits of `WORD32 w, 0`. -/
def heldBuffer (w : Word32) : List Bit :=
  List.ofFn fun j : Fin 32 => ⟨w.getLsb j, 62 - 2 * j.val, 63 - 2 * j.val⟩

/-- `held` stands for the document's buffer of the same 32 bits. -/
theorem held_represents (w : Word32) (cfg : Config) :
    Represents (held cfg w) ⟨heldBuffer w, []⟩ where
  cnt := by simp [held, heldBuffer]
  slots := fun j => by rw [heldBuffer, List.getElem?_ofFn]; simp [held]
  fsm := rfl
  fl := rfl
  out := rfl

/-- An outcome with a next state is one. -/
theorem exists_next {o : Host.Outcome State Fault Refusal} (h : (nextOf o).isSome = true) :
    ∃ t, o = .next t := by
  cases o with
  | next t => exact ⟨t, rfl⟩
  | fault f => simp [nextOf] at h
  | refused r => simp [nextOf] at h

/-- An outcome with a refusal is that refusal. -/
theorem eq_refused {o : Host.Outcome State Fault Refusal} {r : Refusal} (h : refusalOf o = some r) :
    o = .refused r := by
  cases o with
  | next t => simp [refusalOf] at h
  | fault f => simp [refusalOf] at h
  | refused r' => simpa [refusalOf] using h

/-- A frame of any word on TS ends in a next state. -/
theorem held_goes : ∃ t, exec .cs1 (held Config.testBench 0x00300640) = .next t :=
  exists_next (by decide)

/-- Pins that present an event, with the sink not ready. -/
def present (ev : Nat) : Pins := ⟨false, true, ev, false⟩

/-- Pins that accept the record due. -/
def ready : Pins := ⟨false, false, 0, true⟩

/-! ### Witnesses -/

theorem witness_DecodeEncodeRoundTrip : (Instr.bit true 65535 65535).wf 16 = true ∧
    (Instr.bit false 0 0).wf 0 = true ∧ Instr.cs0.wf 16 = true ∧ Instr.cs1.wf 16 = true ∧
    Instr.evk2.wf 16 = true ∧ Instr.evk3.wf 16 = true := by decide

theorem witness_EncodeDecodeCanonical :
    0x7FFFFFFFC % 4 = 0 ∧ 0x7FFFFFFFC < 2 ^ eventWidth 16 ∧ 0 % 4 = 0 ∧ 0 < 2 ^ eventWidth 0 := by decide

theorem witness_EventWordForms : 0x7FFFFFFFC % 4 = 0 ∧
    (0x7FFFFFFF9 % 4 = 1 ∧ Nat.testBit 0x7FFFFFFF9 2 = false) ∧
    (0x7FFFFFFFD % 4 = 1 ∧ Nat.testBit 0x7FFFFFFFD 2 = true) ∧
    0x7FFFFFFFE % 4 = 2 ∧ 3 % 4 = 3 ∧ 2 ≤ 2 % 4 ∧ 2 ≤ 3 % 4 := by decide

theorem witness_IgnoredBitsHaveNoEffect : (0x7FFFFFFFD % 4 = 1 ∧ 0x7FFFFFFFD % 8 = 5 % 8) ∧
    (2 ≤ 0x7FFFFFFFE % 4 ∧ 0x7FFFFFFFE % 4 = 2 % 4) := by decide

theorem witness_AnnWordRoundTrip :
    (⟨.field, 15, 3, 0xFFFFFFFF, 65535, 65535⟩ : AnnRecord).fits 16 2 = true := by decide

theorem witness_StepRunsDecodedEvent : Startable (held Config.testBench 13 [.event 5]).cfg ∧
    (held Config.testBench 13 [.event 5]).fsm = .accumulating ∧
    (held Config.testBench 13 [.event 5]).inputs = .event 5 :: [] := ⟨startable_testBench, rfl, rfl⟩

theorem witness_StepTakesEdge : Startable (flushing 13 0 .selector [.edge ready]).cfg ∧
    (flushing 13 0 .selector [.edge ready]).inputs = .edge ready :: [] := ⟨startable_testBench, rfl⟩

theorem witness_StepHoldsWithoutAcceptedInput : Startable (flushing 13 0 .selector [.event 4]).cfg ∧
    (flushing 13 0 .selector).inputs = [] ∧
    (flushing 13 0 .selector [.event 4]).inputs = .event 4 :: [] ∧
    (flushing 13 0 .selector [.event 4]).fsm = .flushing := ⟨startable_testBench, rfl, rfl, rfl⟩

theorem witness_PlacedWordRunsNext : Startable State.reset.cfg := startable_testBench

theorem witness_SchemaChecksExact : 3 ≤ (State.resetWith (withEntry 2 [] 3)).cfg.maxFields ∧
    3 ≤ State.reset.cfg.maxFields := by decide

/-- One refusal for each check of R64, at its boundary, and a MAX_FIELDS below its bound. -/
theorem witness_RefusalNamesTheFailure :
    step (State.resetWith (withEntry 16 [] 4)) = .refused (.schema .wfIds 16 none) ∧
    step (State.resetWith (withEntry 6 [⟨"F", 4, 0, .lut ["a", "b"]⟩] 4)) =
      .refused (.schema .wfWidth 6 (some 0)) ∧
    step (State.resetWith (withEntry 6 [⟨"F", 4, 1, .identity⟩, ⟨"G", 30, 3, .identity⟩] 4)) =
      .refused (.schema .wfRange 6 (some 1)) ∧
    step (State.resetWith (withEntry 6 [⟨"F", 4, 2, .lut ["a", "b", "c"]⟩] 4)) =
      .refused (.schema .wfTotal 6 (some 0)) ∧
    step (State.resetWith (withEntry 2 [⟨"F", 4, 8, .identity⟩, ⟨"G", 11, 4, .identity⟩] 4)) =
      .refused (.schema .wfDisjoint 2 (some 1)) ∧
    step (State.resetWith (withEntry 2 (oneBitFields 5) 4)) = .refused (.schema .wfCount 2 none) ∧
    (State.resetWith (withEntry 2 [] 2)).cfg.maxFields < 3 :=
  ⟨eq_refused (by decide), eq_refused (by decide), eq_refused (by decide), eq_refused (by decide),
    eq_refused (by decide), eq_refused (by decide), by decide⟩

theorem witness_StepExtendsOutput : ∃ t, step (held Config.testBench 13 [.event 5]) = .next t :=
  exists_next (by decide)

theorem witness_StepKeepsInvariant :
    ((held Config.testBench 13 [.event 5]).Inv ∧
      ∃ t, step (held Config.testBench 13 [.event 5]) = .next t) ∧
    ((flushing 0x00300640 0 .selector [.edge ready]).Inv ∧
      ∃ t, step (flushing 0x00300640 0 .selector [.edge ready]) = .next t) ∧
    ((flushing 0x00300640 2 .fields [.edge ready]).Inv ∧
      ∃ t, step (flushing 0x00300640 2 .fields [.edge ready]) = .next t) :=
  ⟨⟨held_inv _ _, exists_next (by decide)⟩, ⟨flushing_inv _ _, exists_next (by decide)⟩,
    flushing_last_inv _, exists_next (by decide)⟩

theorem witness_StepAlwaysGoes : (flushing 13 0 .selector [.edge ready]).Inv ∧
    Startable (flushing 13 0 .selector [.edge ready]).cfg := ⟨flushing_inv _ _, startable_testBench⟩

theorem witness_EventsNeverStop : (held Config.testBench 13).SlotsOk ∧
    Startable (held Config.testBench 13).cfg := ⟨(held_inv _ _).slotsOk, startable_testBench⟩

theorem witness_CountSaturates :
    (heldBits 32).cnt = 32 ∧ (heldBits 33).cnt = 33 ∧ (heldBits 31).cnt.toNat < 32 := by decide

theorem witness_IgnoredEventsChangeNothing : 0x7FFFFFFF9 % 8 = 1 ∧ 0x7FFFFFFFE % 4 = 2 ∧ 3 % 4 = 3 := by
  decide

theorem witness_AccumulationLaw : .cs1 ∉ [Instr.cs0, .bit true 0 1, .evk2] ∧ State.reset.cnt = 0 ∧
    (∀ j : Fin 32, State.reset.slots[j] = none) := ⟨by decide, rfl, by decide⟩

theorem witness_MostSignificantBitFirst : (heldBuffer 0x00300640).length = 32 ∧ State.reset.cnt = 0 :=
  ⟨by simp [heldBuffer], rfl⟩

theorem witness_WordThirtyTwoFeedsItsWord : State.reset.cnt = 0 := rfl

/-- The whole frame, and its top bit alone. -/
theorem witness_ExtractReadsTheField : (held Config.testBench 0xFFFFFFFC).FrameReady ∧
    (held Config.testBench 0xFFFFFFFC).HoldsWord 0xFFFFFFFC ∧ 1 ≤ 32 ∧ 0 + 32 ≤ 32 ∧ 31 + 1 ≤ 32 :=
  ⟨(held_ready _ _ _).1, (held_ready _ _ _).2, by decide, by decide, by decide⟩

theorem witness_FrameWordHoldsTheSlots : (held Config.testBench 13).Full := (held_ready _ _ _).1.2

theorem witness_ExtractedValueFits :
    ∃ x, (held Config.testBench 0xFFFFFFFC).extract 0 32 = .ok x := ⟨_, rfl⟩

/-- L1.2: the two words agree on bits 19..4 and differ outside them. -/
theorem witness_FieldsAreLocal :
    (held Config.testBench 0x00300640).FrameReady ∧ (held Config.testBench 0xC0000640).FrameReady ∧
    (∀ j, j < 20 → 4 ≤ j → (held Config.testBench 0x00300640).bitAt j = (held Config.testBench 0xC0000640).bitAt j) ∧
    (held Config.testBench 0x00300640).bitAt 20 ≠ (held Config.testBench 0xC0000640).bitAt 20 ∧
    (held Config.testBench 0x00300640).startAt 4 = (held Config.testBench 0xC0000640).startAt 4 ∧
    (held Config.testBench 0x00300640).endAt 19 = (held Config.testBench 0xC0000640).endAt 19 :=
  ⟨(held_ready _ _ _).1, (held_ready _ _ _).1, by decide, by decide, by decide, by decide⟩

theorem witness_SpanTags : (held temporal 13).slots[0]? = some (some ⟨true, 62, 63⟩) ∧
    (held temporal 13).slots[0 + 32 - 1]? = some (some ⟨false, 0, 1⟩) ∧
    (held temporal 13).cfg.spanMode = .temporal ∧ (held Config.testBench 13).cfg.spanMode = .doc := by
  decide

/-- Outside the precondition by one slot, and by a width of 0; inside it with slot 2 the first `⊥`. -/
theorem witness_ExtractFaults :
    ¬ (1 ≤ 4 ∧ 29 + 4 ≤ min (held Config.testBench 13).cnt.toNat 32) ∧
    ¬ (1 ≤ 0 ∧ 0 + 0 ≤ min (held Config.testBench 13).cnt.toNat 32) ∧
    0 + 3 ≤ min ({ heldBits 2 with cnt := 3 } : State).cnt.toNat 32 ∧
    ({ heldBits 2 with cnt := 3 } : State).slots[2]? = some none ∧
    ({ heldBits 2 with cnt := 3 } : State).slots[0]? = some (some ⟨true, 0, 1⟩) ∧
    ({ heldBits 2 with cnt := 3 } : State).slots[1]? = some (some ⟨true, 1, 2⟩) := by decide

/-- The last label of a table, and the first value past it. -/
theorem witness_RenderByTransform : (3 : Word32).toNat < ["a", "b", "c", "d"].length ∧
    ["a", "b", "c"].length ≤ (3 : Word32).toNat := by decide

/-- A numeral of two digits. -/
theorem witness_DecimalNumerals : 0 < 10 ∧ dec 10 = "10" := by decide

theorem witness_FrameDecodes : Startable (held Config.testBench 0x00300640).cfg ∧
    (held Config.testBench 0x00300640).FrameReady ∧
    (held Config.testBench 0x00300640).HoldsWord 0x00300640 :=
  ⟨startable_testBench, held_ready _ _ _⟩

theorem witness_DocumentStreamOfAFrame : Startable (held Config.testBench 13).cfg ∧
    (held Config.testBench 13).FrameReady ∧ (held Config.testBench 13).HoldsWord 13 :=
  ⟨startable_testBench, held_ready _ _ _⟩

theorem witness_WrongLengthIsDiscarded : (heldBits 31).cnt ≠ 32 ∧ (heldBits 33).cnt ≠ 32 ∧
    (heldBits 0).cnt ≠ 32 := by decide

theorem witness_DeassertionAlwaysClears : ∃ t, exec .cs1 (held Config.testBench 0x00300640) = .next t :=
  held_goes

theorem witness_EmptyDeassertionChangesNothing :
    (State.resetWith temporal).cnt = 0 ∧ (State.resetWith temporal).fsm = .accumulating ∧
    (State.resetWith temporal).Inv :=
  ⟨rfl, rfl, by simp [State.CntOk], fun j => by simp [State.filled], fun j b h => by simp at h, trivial⟩

theorem witness_SecondDeassertionDoesNothing :
    ∃ t, exec .cs1 (held Config.testBench 0x00300640) = .next t := held_goes

theorem witness_EmissionOrder : (held Config.testBench 0x00300640).FrameReady ∧
    (held Config.testBench 0x00300640).HoldsWord 0x00300640 ∧
    ∃ t es, exec .cs1 (held Config.testBench 0x00300640) = .next t ∧
      t.out = (held Config.testBench 0x00300640).out ++ es :=
  ⟨(held_ready _ _ _).1, (held_ready _ _ _).2, held_goes.elim fun t h => ⟨t, t.out, h, rfl⟩⟩

theorem witness_OnlyDecodedFramesEmit :
    ∃ t, exec .cs1 (held Config.testBench 13) = .next t ∧ t.out ≠ (held Config.testBench 13).out := by
  obtain ⟨t, h⟩ : ∃ t, exec .cs1 (held Config.testBench 13) = .next t := exists_next (by decide)
  refine ⟨t, h, fun he => ?_⟩
  have hl : (nextOf (exec .cs1 (held Config.testBench 13))).map (fun t => t.out.length) = some 1 := by
    decide
  rw [h] at hl
  have h1 : t.out.length = 1 := Option.some.inj hl
  rw [he] at h1
  exact absurd h1 (by decide)

theorem witness_EmptyAndUnknownRegisters (w : Word32) (_ : w = 5 ∨ w = 8 ∨ w = 11 ∨ w = 13 ∨ w = 15) :
    (held Config.testBench w).cfg.schema.IsReference ∧ (held Config.testBench w).FrameReady ∧
    (held Config.testBench w).HoldsWord w :=
  ⟨testSchema_isReference, held_ready _ _ _⟩

theorem witness_EmptyAndUnknownRegisters_ids : (5 : Word32).toNat % 16 = 5 ∧
    (8 : Word32).toNat % 16 = 8 ∧ (11 : Word32).toNat % 16 = 11 ∧ 13 ≤ (13 : Word32).toNat % 16 ∧
    13 ≤ (15 : Word32).toNat % 16 := by decide

theorem witness_RegisterZeroLabels : Startable (held Config.testBench 0x00300640).cfg ∧
    (held Config.testBench 0x00300640).cfg.schema.IsReference ∧
    (held Config.testBench 0x00300640).FrameReady ∧
    (held Config.testBench 0x00300640).HoldsWord 0x00300640 ∧
    ∃ int pre cal, (held Config.testBench 0x00300640).cfg.schema.lookup 0 = some [int, pre, cal] ∧
      (0x00300640 : Word32).toNat % 16 = 0 ∧
      fieldOf 0x00300640 int.offset int.width = 100 ∧ fieldOf 0x00300640 pre.offset pre.width = 1 ∧
      fieldOf 0x00300640 cal.offset cal.width = 1 :=
  ⟨startable_testBench, testSchema_isReference, (held_ready _ _ _).1, (held_ready _ _ _).2,
    _, _, _, rfl, by decide, by decide, by decide, by decide⟩

theorem witness_RfOutputPowerLabels : Startable (held Config.testBench 0x36).cfg ∧
    (held Config.testBench 0x36).cfg.schema.IsReference ∧ (held Config.testBench 0x36).FrameReady ∧
    (held Config.testBench 0x36).HoldsWord 0x36 ∧ (0x36 : Word32).toNat % 16 = 6 :=
  ⟨startable_testBench, testSchema_isReference, (held_ready _ _ _).1, (held_ready _ _ _).2, by decide⟩

theorem witness_BlockFollowsDocument : Startable (held Config.testBench 0x00300640).cfg ∧
    Represents (held Config.testBench 0x00300640) ⟨heldBuffer 0x00300640, []⟩ :=
  ⟨startable_testBench, held_represents _ _⟩

theorem witness_BlockOutputsWhatDocumentOutputs : Startable temporal ∧ Startable Config.testBench :=
  ⟨startable_temporal, startable_testBench⟩

/-- A presented event while ACCUMULATING; the same while FLUSHING, and with `rst = 1`; nothing presented. -/
theorem witness_InputHandshake :
    inReady (present 4).rst (heldBits 5) = true ∧ (present 4).inValid = true ∧
    inReady (present 4).rst (flushing 13 0 .selector) = false ∧ inReady true (heldBits 5) = false ∧
    idle.inValid = false ∧ inReady idle.rst (heldBits 5) = true := by decide

/-- A BIT on a full block, and a CS 1 on an empty one. -/
theorem witness_AcceptedEventIsTheEventStep :
    (held Config.testBench 13).Inv ∧ (held Config.testBench 13).fsm = .accumulating ∧
    (present 4).rst = false ∧ (present 4).inValid = true ∧ (present 5).inValid = true ∧
    decode (held Config.testBench 13).cfg.posW (present 4).inWord ≠ .cs1 ∧
    (State.resetWith temporal).Inv ∧ (State.resetWith temporal).cnt ≠ 32 :=
  ⟨held_inv _ _, rfl, rfl, rfl, rfl, by decide, witness_EmptyDeassertionChangesNothing.2.2, by decide⟩

theorem witness_ResetEdge : (⟨true, true, 4, true⟩ : Pins).rst = true := rfl

theorem witness_FlushStarts : (held Config.testBench 13).FrameReady ∧
    (held Config.testBench 13).HoldsWord 13 ∧ (held Config.testBench 13).fsm = .accumulating ∧
    (present 5).rst = false ∧ (present 5).inValid = true ∧
    decode (held Config.testBench 13).cfg.posW (present 5).inWord = .cs1 :=
  ⟨(held_ready _ _ _).1, (held_ready _ _ _).2, rfl, rfl, rfl, by decide⟩

/-- Three of the four records of F.13 delivered, with a wait between, and no edge at all. -/
theorem witness_FlushDeliversInOrder :
    Startable (held Config.testBench 0x00300640).cfg ∧
    (held Config.testBench 0x00300640).FrameReady ∧
    (held Config.testBench 0x00300640).HoldsWord 0x00300640 ∧
    (held Config.testBench 0x00300640).fsm = .accumulating ∧ (present 5).rst = false ∧
    (present 5).inValid = true ∧ decode 16 (present 5).inWord = .cs1 ∧
    (∀ q ∈ [ready, present 4, ready, ready], q.rst = false) ∧
    [ready, present 4, ready, ready].countP Pins.annReady <
      (frameEmissionsOf (held Config.testBench 0x00300640) 0x00300640).length ∧
    [].countP Pins.annReady <
      (frameEmissionsOf (held Config.testBench 0x00300640) 0x00300640).length :=
  ⟨startable_testBench, (held_ready _ _ _).1, (held_ready _ _ _).2, rfl, rfl, rfl, by decide,
    by decide, by decide, by decide⟩

/-- The last edge of a flush after three deliveries. -/
theorem witness_FlushRefinesDeassertion :
    Startable (held Config.testBench 0x00300640).cfg ∧
    (held Config.testBench 0x00300640).FrameReady ∧
    (held Config.testBench 0x00300640).HoldsWord 0x00300640 ∧
    (held Config.testBench 0x00300640).fsm = .accumulating ∧ (present 5).rst = false ∧
    (present 5).inValid = true ∧ decode 16 (present 5).inWord = .cs1 ∧
    (∀ q ∈ [ready, idle, ready, ready], q.rst = false) ∧ ready.rst = false ∧ ready.annReady = true ∧
    [ready, idle, ready, ready].countP Pins.annReady + 1 =
      (frameEmissionsOf (held Config.testBench 0x00300640) 0x00300640).length :=
  ⟨startable_testBench, (held_ready _ _ _).1, (held_ready _ _ _).2, rfl, rfl, rfl, by decide,
    by decide, rfl, rfl, by decide⟩

/-- Two edges without `ann_ready`, and `ann_valid` on both sides of its condition. -/
theorem witness_SinkHoldsTheFlush : (flushing 13 0 .selector).fsm = .flushing ∧
    (∀ q ∈ [present 4, idle], q.rst = false ∧ q.annReady = false) ∧
    annValid false (flushing 13 0 .selector) = true ∧ annValid true (flushing 13 0 .selector) = false ∧
    annValid false (heldBits 5) = false := by decide

theorem witness_PortCarriesTheRecordDue :
    ((flushing 13 0 .selector).Inv ∧ Startable (flushing 13 0 .selector).cfg ∧
      (flushing 13 0 .selector).fsm = .flushing) ∧
    ((flushing 0x00300640 2 .fields).Inv ∧ (flushing 0x00300640 2 .fields).fsm = .flushing) :=
  ⟨⟨flushing_inv _ _, startable_testBench, rfl⟩, flushing_last_inv _, rfl⟩

end Sys2Proof.Tests
end

section
/-! What one step of a started block does when the next input is an event (00_scope.md R16). -/

namespace Sys2Proof.Machine

/-- `in_ready` read as R61 words it. -/
theorem inReady_eq_true_iff (rst : Bool) (s : State) :
    inReady rst s = true ↔ rst = false ∧ s.fsm = .accumulating := by
  simp [inReady]

/-- An event word at the head of the inputs is fetched, decoded, once the block is ready for it. -/
theorem fetch_of_event {s : State} {ev : Nat} {rest : List Input}
    (hready : inReady false s = true) (hin : s.inputs = .event ev :: rest) :
    s.fetch = .event (decode s.cfg.posW ev) { s with inputs := rest } := by
  simp [State.fetch, hin, hready]

/-- R46: a started block performs the event it fetched, whole. -/
theorem step_of_fetch_event {s t : State} {i : Instr}
    (hstart : Startable s.cfg) (hfetch : s.fetch = .event i t) : step s = exec i t := by
  have hproblem : s.cfg.problem = none := hstart
  simp [step, hproblem, hfetch]

/-- Settles O8: an ACCUMULATING block is ready, so it fetches the event and the step performs it. -/
theorem stepRunsDecodedEvent : Obligations.StepRunsDecodedEvent := by
  intro s ev rest hstart hacc hin
  have hready : inReady false s = true := (inReady_eq_true_iff false s).2 ⟨rfl, hacc⟩
  exact step_of_fetch_event hstart (fetch_of_event hready hin)

end Sys2Proof.Machine
end

section
/-! How the operations on the registers keep the invariant of 10_state.md R23 to R28. -/

namespace Sys2Proof.Machine

/-- The frame word reads nothing but the slots (R42). -/
theorem SameFrame.frameWord {s t : State} (h : SameFrame s t) : s.frameWord = t.frameWord := by
  simp [State.frameWord, h.placeValue]

/-- The flush registers name a record that is due (R28): the selector's, or that of a field of `fl_reg`. -/
def FlushRegs.IdxOk (sch : Schema) (r : FlushRegs) : Prop :=
  match r.phase with
  | .selector => r.idx = 0
  | .fields => r.idx < (fieldList sch r.reg).length

/-- R28 while ACCUMULATING: the flush registers hold `⊥`. -/
theorem flushOk_iff_of_accumulating {s : State} (hfsm : s.fsm = .accumulating) :
    s.FlushOk ↔ s.fl = none := by
  unfold State.FlushOk
  cases hfl : s.fl <;> simp [hfsm]

/-- R28 while FLUSHING with registers `r`: `r` holds the frame, and names a record that is due. -/
theorem flushOk_iff_of_flushing {s : State} {r : FlushRegs} (hfsm : s.fsm = .flushing)
    (hfl : s.fl = some r) :
    s.FlushOk ↔ s.cnt = 32 ∧ s.frameWord = .ok r.word ∧ r.reg = r.word.setWidth 4 ∧
      r.IdxOk s.cfg.schema := by
  unfold State.FlushOk
  rw [hfsm, hfl]
  exact Iff.rfl

/-- A delivery that is not the last goes to a record that is due, of the same frame (R160). -/
theorem FlushRegs.afterDelivery_some {sch : Schema} {r r' : FlushRegs} (hr : r.IdxOk sch)
    (h : r.afterDelivery sch = some r') :
    r'.word = r.word ∧ r'.reg = r.reg ∧ r'.IdxOk sch := by
  unfold FlushRegs.afterDelivery at h
  cases hp : r.phase with
  | selector =>
    have hfields : ¬ (!regKnown sch r.reg || (fieldList sch r.reg).isEmpty) = true := by
      intro hnone; simp [hp, hnone] at h
    simp only [hp, if_neg hfields, Option.some.injEq] at h
    subst h
    have hne : fieldList sch r.reg ≠ [] := by simp_all
    exact ⟨rfl, rfl, List.length_pos_of_ne_nil hne⟩
  | fields =>
    have hlt : r.idx < (fieldList sch r.reg).length := by simpa [FlushRegs.IdxOk, hp] using hr
    have hlast : ¬ r.idx = (fieldList sch r.reg).length - 1 := by
      intro hlast; simp [hp, hlast] at h
    simp only [hp, if_neg hlast, Option.some.injEq] at h
    subst h
    refine ⟨rfl, rfl, ?_⟩
    simp only [FlushRegs.IdxOk]
    omega

/-- A frame started with an accepting edge gives registers that hold it (R160). -/
theorem startFlush_eq_ok {s t : State} (h : s.startFlush = .ok t) :
    ∃ w, s.frameWord = .ok w ∧
      t = { s with fsm := .flushing, fl := some ⟨w, w.setWidth 4, 0, .selector⟩ } := by
  unfold State.startFlush at h
  cases hw : s.frameWord with
  | error f => simp [hw, bind, Except.bind] at h
  | ok w => exact ⟨w, rfl, by simpa [hw, bind, Except.bind] using h.symm⟩

/-- An empty block that ACCUMULATES meets the invariant, whatever else it holds (R150). -/
theorem inv_of_empty {s : State} (hslots : s.slots = Vector.replicate 32 none) (hcnt : s.cnt = 0)
    (hfsm : s.fsm = .accumulating) (hfl : s.fl = none) : s.Inv where
  cntOk := by simp [State.CntOk, hcnt]
  slotsOk := fun j => by simp [hslots, State.filled, hcnt]
  tagsFit := fun j b hj => by simp [hslots] at hj
  flushOk := (flushOk_iff_of_accumulating hfsm).mpr hfl

/-- With configuration, slots and count the same, only R28 is left to check. -/
theorem State.Inv.of_sameFrame {s t : State} (hs : s.Inv) (h : SameFrame s t) (hfl : t.FlushOk) :
    t.Inv where
  cntOk := by simpa [State.CntOk, h.cnt] using hs.cntOk
  slotsOk := fun j => by simpa [State.filled, h.cnt, h.slots] using hs.slotsOk j
  tagsFit := fun j => by simpa [h.cfg, h.slots] using hs.tagsFit j
  flushOk := hfl

/-- With configuration, slots and count the same and a whole frame latched, R28 asks for registers `r`
that hold this frame and name a record that is due. -/
theorem State.Inv.latched {s t : State} {r : FlushRegs} (hs : s.Inv) (h : SameFrame s t)
    (hfsm : t.fsm = .flushing) (hfl : t.fl = some r) (hcnt : s.cnt = 32)
    (hword : s.frameWord = .ok r.word) (hreg : r.reg = r.word.setWidth 4)
    (hidx : r.IdxOk s.cfg.schema) : t.Inv := by
  refine hs.of_sameFrame h ((flushOk_iff_of_flushing hfsm hfl).mpr ?_)
  rw [← h.cnt, ← h.frameWord, ← h.cfg]
  exact ⟨hcnt, hword, hreg, hidx⟩

/-- What is still to be delivered is no part of the invariant. -/
theorem State.Inv.with_inputs {s : State} (hs : s.Inv) (is : List Input) :
    ({ s with inputs := is } : State).Inv := by
  refine hs.of_sameFrame ⟨rfl, rfl, rfl⟩ ?_
  have hword : ({ s with inputs := is } : State).frameWord = s.frameWord :=
    SameFrame.frameWord ⟨rfl, rfl, rfl⟩
  have hfl := hs.flushOk
  unfold State.FlushOk at hfl ⊢
  rwa [hword]

/-- R81 against R23: the slots still hold a Bit exactly below the count. -/
theorem State.SlotsOk.shiftIn {s : State} (h : s.SlotsOk) (b : Bit) : (s.shiftIn b).SlotsOk := by
  rintro ⟨j, hj⟩
  cases j with
  | zero => simp [State.filled]
  | succ k =>
    have hk : s.slots[k].isSome = decide (k < s.filled) := h ⟨k, by omega⟩
    have hlt : k + 1 < (s.shiftIn b).filled ↔ k < s.filled := by
      simp only [State.filled, State.shiftIn_cnt, countUp_toNat]
      omega
    simp [hk, hlt]

/-- R81 against R22: the shifted slots hold the new Bit and old ones, so their positions fit. -/
theorem State.TagsFit.shiftIn {s : State} (h : s.TagsFit) {b : Bit}
    (hb : fitsBits s.cfg.posW b.startPos = true ∧ fitsBits s.cfg.posW b.endPos = true) :
    (s.shiftIn b).TagsFit := by
  rintro ⟨j, hj⟩ c hc
  cases j with
  | zero =>
    obtain rfl : b = c := by simpa using hc
    exact hb
  | succ k => exact h ⟨k, by omega⟩ c (by simpa [hj] using hc)

/-- SHIFT_IN of a Bit whose positions fit keeps the invariant of an ACCUMULATING block (R81). -/
theorem State.Inv.shiftIn {s : State} (hs : s.Inv) (hfsm : s.fsm = .accumulating) {b : Bit}
    (hb : fitsBits s.cfg.posW b.startPos = true ∧ fitsBits s.cfg.posW b.endPos = true) :
    (s.shiftIn b).Inv where
  cntOk := by simp [State.CntOk]
  slotsOk := hs.slotsOk.shiftIn b
  tagsFit := hs.tagsFit.shiftIn hb
  flushOk := by
    have hfl : s.fl = none := (flushOk_iff_of_accumulating hfsm).mp hs.flushOk
    rwa [flushOk_iff_of_accumulating (by rwa [State.shiftIn_fsm]), State.shiftIn_fl]

/-- The accepting edge of a decodable CS 1 keeps the invariant: it latches the frame (R160). -/
theorem State.Inv.startFlush {s t : State} (hs : s.Inv) (hcnt : s.cnt = 32)
    (h : s.startFlush = .ok t) : t.Inv := by
  obtain ⟨w, hw, rfl⟩ := startFlush_eq_ok h
  exact hs.latched ⟨rfl, rfl, rfl⟩ rfl rfl hcnt hw rfl rfl

/-- A delivery keeps the invariant: the flush ends in the cleared block, or goes on with the same frame
and a record that is due (R160). -/
theorem State.Inv.deliver {s t : State} (hs : s.Inv) (hfsm : s.fsm = .flushing)
    (h : s.deliver = .ok t) : t.Inv := by
  obtain ⟨r, e, hr, -, ⟨-, rfl⟩ | ⟨r', hnext, rfl⟩⟩ := deliver_cases h
  · exact inv_of_empty rfl rfl rfl rfl
  · obtain ⟨hcnt, hword, hreg, hidx⟩ := (flushOk_iff_of_flushing hfsm hr).mp hs.flushOk
    obtain ⟨hword', hreg', hidx'⟩ := FlushRegs.afterDelivery_some hidx hnext
    exact hs.latched ⟨rfl, rfl, rfl⟩ hfsm rfl hcnt (by rw [hword, hword'])
      (by rw [hreg', hword', hreg]) hidx'

/-- The positions of a decoded BIT come from fields of POS_W bits, so they fit (R56, R57). -/
theorem decode_bit_fits {posW ev a b : Nat} {v : Bool} (h : decode posW ev = .bit v a b) :
    fitsBits posW a = true ∧ fitsBits posW b = true := by
  unfold decode at h
  split at h
  · cases h
    exact ⟨bitField_fits _ _ _, bitField_fits _ _ _⟩
  · split at h <;> cases h
  · cases h
  · cases h

/-- A decoded event keeps the invariant of an ACCUMULATING block (R16). -/
theorem State.Inv.exec {s t : State} (hs : s.Inv) (hfsm : s.fsm = .accumulating) {ev : Nat}
    (h : exec (decode s.cfg.posW ev) s = .next t) : t.Inv := by
  obtain ⟨v, a, b, hi, rfl⟩ | ⟨-, es, rfl, -⟩ | ⟨-, rfl⟩ := exec_cases h
  · exact hs.shiftIn hfsm (decode_bit_fits hi)
  · exact inv_of_empty rfl rfl rfl rfl
  · exact hs

/-- An edge keeps the invariant (R160). -/
theorem State.Inv.clockEdge {s t : State} (hs : s.Inv) {p : Pins}
    (h : clockEdge p s = .next t) : t.Inv := by
  obtain ⟨-, rfl⟩ | ⟨-, rfl⟩ | ⟨-, hfsm, -, ⟨v, a, b, hi, rfl⟩ | ⟨-, hcnt, hflush⟩ | ⟨-, -, rfl⟩⟩ |
    ⟨-, hfsm, -, hdel⟩ := clockEdge_cases h
  · exact inv_of_empty rfl rfl rfl rfl
  · exact hs
  · exact hs.shiftIn hfsm (decode_bit_fits hi)
  · exact hs.startFlush hcnt hflush
  · exact inv_of_empty rfl rfl hfsm ((flushOk_iff_of_accumulating hfsm).mp hs.flushOk)
  · exact hs.deliver hfsm hdel

/-- Settles O17, by the three things a step can do: hold, perform an event, take an edge. -/
theorem stepKeepsInvariant : Obligations.StepKeepsInvariant := by
  intro s t hs h
  obtain rfl | ⟨ev, rest, -, hfsm, hexec⟩ | ⟨p, rest, -, hedge⟩ := step_cases h
  · exact hs
  · exact (hs.with_inputs rest).exec hfsm hexec
  · exact (hs.with_inputs rest).clockEdge hedge

/-- Settles O16: the reset state is an empty block, whatever its configuration. -/
theorem resetMeetsInvariant : Obligations.ResetMeetsInvariant := by
  have hreset (cfg : Config) : (State.resetWith cfg).Inv := inv_of_empty rfl rfl rfl rfl
  exact ⟨hreset Config.testBench, hreset⟩

end Sys2Proof.Machine
end

section
/-! What a step leaves unchanged and appends: configuration, output and inputs (10_state.md R33, R34). -/

namespace Sys2Proof.Machine

/-- `t` has the configuration and the inputs of `s`, and its output after zero or more emissions (R33, R34). -/
structure ExtendsOutput (s t : State) : Prop where
  cfg    : t.cfg = s.cfg
  inputs : t.inputs = s.inputs
  out    : ∃ es, t.out = s.out ++ es

/-- A state that differs in registers of the block alone has emitted nothing. -/
theorem ExtendsOutput.of_eq {s t : State} (hcfg : t.cfg = s.cfg) (hinputs : t.inputs = s.inputs)
    (hout : t.out = s.out) : ExtendsOutput s t :=
  ⟨hcfg, hinputs, [], by rw [hout, List.append_nil]⟩

/-- An event takes no input of its own and only appends output (R46, R47). -/
theorem exec_extendsOutput {i : Instr} {s t : State} (h : exec i s = .next t) :
    ExtendsOutput s t := by
  obtain ⟨v, a, b, -, rfl⟩ | ⟨-, es, rfl, -⟩ | ⟨-, rfl⟩ := exec_cases h
  · exact .of_eq rfl rfl rfl
  · exact ⟨rfl, rfl, es, rfl⟩
  · exact .of_eq rfl rfl rfl

/-- A delivery appends the record due (R160). -/
theorem deliver_extendsOutput {s t : State} (h : s.deliver = .ok t) : ExtendsOutput s t := by
  obtain ⟨r, e, -, -, ⟨-, rfl⟩ | ⟨r', -, rfl⟩⟩ := deliver_cases h
  · exact ⟨rfl, rfl, [e], rfl⟩
  · exact ⟨rfl, rfl, [e], rfl⟩

/-- An edge, a reset too, takes no input of its own and only appends output (R152, R160). -/
theorem clockEdge_extendsOutput {p : Pins} {s t : State} (h : clockEdge p s = .next t) :
    ExtendsOutput s t := by
  obtain ⟨-, rfl⟩ | ⟨-, rfl⟩ | ⟨-, -, -, ⟨v, a, b, -, rfl⟩ | ⟨-, -, hflush⟩ | ⟨-, -, rfl⟩⟩ |
    ⟨-, -, -, hdel⟩ := clockEdge_cases h
  · exact .of_eq rfl rfl rfl
  · exact .of_eq rfl rfl rfl
  · exact .of_eq rfl rfl rfl
  · obtain ⟨w, -, rfl⟩ := startFlush_eq_ok hflush
    exact .of_eq rfl rfl rfl
  · exact .of_eq rfl rfl rfl
  · exact deliver_extendsOutput hdel

/-- Settles O14: a step holds, or takes the head of `inputs` and performs it on the tail. -/
theorem stepExtendsOutput : Obligations.StepExtendsOutput := by
  have htail {s t : State} {x : Input} {rest : List Input} (hin : s.inputs = x :: rest)
      (h : ExtendsOutput { s with inputs := rest } t) :
      t.cfg = s.cfg ∧ (∃ es, t.out = s.out ++ es) ∧
        (t.inputs = s.inputs ∨ t.inputs = s.inputs.tail) :=
    ⟨h.cfg, h.out, .inr (by rw [h.inputs, hin]; rfl)⟩
  intro s t h
  obtain rfl | ⟨ev, rest, hin, -, hexec⟩ | ⟨p, rest, hin, hedge⟩ := step_cases h
  · exact ⟨rfl, ⟨[], (List.append_nil _).symm⟩, .inl rfl⟩
  · exact htail hin (exec_extendsOutput hexec)
  · exact htail hin (clockEdge_extendsOutput hedge)

end Sys2Proof.Machine
end

section
/-! What EXTRACT, the field loop and the frame's emissions answer on a complete frame of a known word
(40_accumulator.md R84; 41_frame_decoder.md R104, R107, R119). -/

namespace Sys2Proof.Machine

/-- Every state holds the frame word of R42: the word of its 32 values. -/
theorem State.exists_holdsWord (s : State) : ∃ w, s.HoldsWord w :=
  ⟨BitVec.ofFnLE fun j : Fin 32 => s.bitAt j, fun j hj => by simp [hj]⟩

/-- A field's value is below `2^width` (R120). -/
theorem fieldOf_toNat_lt (w : Word32) (offset width : Nat) :
    (fieldOf w offset width).toNat < 2 ^ width :=
  calc (fieldOf w offset width).toNat
      ≤ w.toNat / 2 ^ offset % 2 ^ width := by
        rw [fieldOf, BitVec.toNat_ofNat]; exact Nat.mod_le _ _
    _ < 2 ^ width := Nat.mod_lt _ (Nat.two_pow_pos width)

/-- The selector's field of a frame word holds its register id (R7, R104). -/
theorem fieldOf_selector (w : Word32) :
    (fieldOf w selOffset selWidth).setWidth 4 = w.setWidth 4 := by
  apply BitVec.eq_of_toNat_eq
  simp only [fieldOf, selOffset, selWidth, BitVec.toNat_setWidth, BitVec.toNat_ofNat]
  omega

/-- EXTRACT inside the word of a complete frame: the field of the word, and the span of R105. -/
theorem extract_of_word {s : State} {w : Word32} (hs : s.FrameReady) (hw : s.HoldsWord w)
    {offset width : Nat} (h1 : 1 ≤ width) (h2 : offset + width ≤ 32) :
    s.extract offset width =
      .ok ⟨fieldOf w offset width, s.spanStart offset width, s.spanEnd offset width⟩ := by
  have hcan := canExtract_of_frameReady hs h1 h2
  have hvalue := placeValue_of_defined (s := s) offset width fun j _ hj => hs.2.slot (by omega)
  rw [placeSum_of_word hw h2] at hvalue
  simp [State.extract, hcan, hvalue, span_of_full hs.2 h1 h2, fieldOf, bind, Except.bind]

/-- The field loop over fields that R64 passes, from index `k` on: one FIELD record each (R107). -/
theorem fieldEmissions_of_word {s : State} {w : Word32} (hs : s.FrameReady) (hw : s.HoldsWord w)
    (fs : List FieldDesc) (k : Nat)
    (hfs : ∀ d ∈ fs, 1 ≤ d.width ∧ d.offset + d.width ≤ 32 ∧
      ∀ labels, d.xform = .lut labels → 2 ^ d.width ≤ labels.length) :
    s.fieldEmissions (w.setWidth 4) k fs = .ok (fs.mapIdx fun i d => fieldEmissionOf s w (k + i) d) := by
  induction fs generalizing k with
  | nil => rfl
  | cons d rest ih =>
    obtain ⟨h1, h2, htotal⟩ := hfs d (by simp)
    have hextract := extract_of_word hs hw h1 h2
    have htext := render_of_total (reg := w.setWidth 4) (k := k) htotal
      (fieldOf_toNat_lt w d.offset d.width)
    have hrest := ih (k + 1) fun x hx => hfs x (by simp [hx])
    simp [State.fieldEmissions, fieldEmission, hextract, htext, hrest, fieldEmissionOf,
      bind, Except.bind, Nat.add_assoc, Nat.add_comm 1]

/-- A complete frame of a started block emits exactly the records of R119, and raises no fault (R130). -/
theorem frameEmissions_of_word {s : State} {w : Word32} (hstart : Startable s.cfg)
    (hs : s.FrameReady) (hw : s.HoldsWord w) :
    s.frameEmissions = .ok (frameEmissionsOf s w) := by
  have hsel := extract_of_word hs hw (offset := selOffset) (width := selWidth) (by decide) (by decide)
  have hfields := fieldEmissions_of_word hs hw (fieldList s.cfg.schema (w.setWidth 4)) 0
    fun d hd => hstart.field hd
  rw [frameEmissions_eq, hsel]
  simp only [Except.bind, fieldOf_selector, hfields, Except.map, Nat.zero_add]
  rfl

/-- CS 1 on a complete frame of a started block: its records, then the cleared block (R100, R113). -/
theorem exec_cs1_of_word {s : State} {w : Word32} (hstart : Startable s.cfg)
    (hs : s.FrameReady) (hw : s.HoldsWord w) :
    exec .cs1 s = .next { s.cleared with out := s.out ++ frameEmissionsOf s w } := by
  show execCs1 s = _
  rw [execCs1_eq, if_pos hs.1, frameEmissions_of_word hstart hs hw]
  rfl

/-- CS 1 on any other count: nothing emitted, the cleared block (R102, R113). -/
theorem exec_cs1_of_wrong_length {s : State} (hcnt : s.cnt ≠ 32) : exec .cs1 s = .next s.cleared := by
  show execCs1 s = _
  rw [execCs1_eq, if_neg hcnt]
  simp [Except.map, State.cleared]

end Sys2Proof.Machine
end

section
/-! The block beside the document's decoder (10_state.md R25). EXTRACT, the field loop and the frame's
emissions answer in both alike, the document's `none` standing for the block's fault; so one event keeps
the two in step. -/

namespace Sys2Proof.Machine

/-- A slot of the block holds the buffer's element of its number. -/
theorem Represents.slot {s : State} {d : DocState} (h : Represents s d) {j : Nat} (hj : j < 32) :
    s.slots[j]? = some d.buffer[j]? := by
  rw [Vector.getElem?_eq_getElem hj, ← h.slots ⟨j, hj⟩]
  rfl

/-- The length check of R101 answers alike in both. -/
theorem Represents.cnt_eq_iff {s : State} {d : DocState} (h : Represents s d) :
    s.cnt = 32 ↔ d.buffer.length = 32 := by
  have hcnt : s.cnt = 32 ↔ s.cnt.toNat = 32 := BitVec.toNat_inj.symm
  rw [hcnt, h.cnt]
  omega

/-- A block that stands for a buffer of exactly 32 bits holds a complete frame (R23). -/
theorem Represents.frameReady {s : State} {d : DocState} (h : Represents s d)
    (hlen : d.buffer.length = 32) : s.FrameReady :=
  ⟨h.cnt_eq_iff.mpr hlen, fun j => by rw [h.slots j]; simp [hlen]⟩

/-- When the buffer has 32 elements, every slot holds the Bit of its number in the buffer. -/
theorem Represents.exists_bit {s : State} {d : DocState} (h : Represents s d)
    (hlen : d.buffer.length = 32) {j : Nat} (hj : j < 32) :
    ∃ b, d.buffer[j]? = some b ∧ s.slots[j]? = some (some b) := by
  have hbuf : d.buffer[j]? = some d.buffer[j] := List.getElem?_eq_getElem (by omega)
  exact ⟨_, hbuf, by rw [h.slot hj, hbuf]⟩

/-- The document's value of a run of bits is the place-value sum over the slots (R84). -/
theorem Represents.bitsValue {s : State} {d : DocState} (h : Represents s d)
    (hlen : d.buffer.length = 32) {offset width : Nat} (hle : offset + width ≤ 32) :
    bitsValue ((d.buffer.drop offset).take width) = placeSum s.bitAt offset width := by
  induction width generalizing offset with
  | zero => rfl
  | succ n ih =>
    obtain ⟨b, hbuf, hslot⟩ := h.exists_bit hlen (j := offset) (by omega)
    obtain ⟨hlt, rfl⟩ := List.getElem?_eq_some_iff.mp hbuf
    rw [List.drop_eq_getElem_cons hlt, List.take_succ_cons, Machine.bitsValue, ih (by omega),
      placeSum, (State.views_of_some hslot).1]

/-- EXTRACT on a buffer of 32 bits, R84 and R85 in both. -/
theorem Represents.docExtract {s : State} {d : DocState} (h : Represents s d)
    (hlen : d.buffer.length = 32) (offset width : Nat) :
    docExtract s.cfg.spanMode d.buffer offset width = (s.extract offset width).toOption := by
  have hready := h.frameReady hlen
  by_cases hle : 1 ≤ width ∧ offset + width ≤ 32
  · obtain ⟨h1, h2⟩ := hle
    obtain ⟨low, hlow, hlowSlot⟩ := h.exists_bit hlen (j := offset) (by omega)
    obtain ⟨high, hhigh, hhighSlot⟩ := h.exists_bit hlen (j := offset + width - 1) (by omega)
    have hvalue := placeValue_of_defined (s := s) offset width fun j _ hj => hready.2.slot (by omega)
    have hcan := canExtract_of_frameReady hready h1 h2
    have hspan := span_of_full hready.2 h1 h2
    have hbits := h.bitsValue hlen h2
    cases hm : s.cfg.spanMode <;>
      simp [Machine.docExtract, State.extract, hlen, h1, h2, hlow, hhigh, hcan, hvalue, hspan, hbits,
        State.spanStart, State.spanEnd, hm, State.views_of_some hlowSlot,
        State.views_of_some hhighSlot, bind, Except.bind, Except.toOption]
  · have hcan : s.canExtract offset width = false := by
      rw [← Bool.not_eq_true, canExtract_iff, hready.1]
      exact hle
    simp [Machine.docExtract, State.extract, hlen, hle, hcan, Except.toOption]

/-- The field loop on a buffer of 32 bits, R107 in both. -/
theorem Represents.docFields {s : State} {d : DocState} (h : Represents s d)
    (hlen : d.buffer.length = 32) (reg : RegId) (fs : List FieldDesc) (k : Nat) :
    docFields s.cfg.spanMode d.buffer reg k fs = (s.fieldEmissions reg k fs).toOption := by
  induction fs generalizing k with
  | nil => rfl
  | cons f rest ih =>
    rw [Machine.docFields, State.fieldEmissions, h.docExtract hlen, ih]
    cases s.extract f.offset f.width with
    | error _ => rfl
    | ok x =>
      cases hfield : fieldEmission reg k f x with
      | error _ => simp [hfield, Except.toOption, bind, Except.bind]
      | ok e =>
        simp only [Except.toOption, bind, Except.bind, Option.bind_some, hfield]
        cases s.fieldEmissions reg (k + 1) rest <;> rfl

/-- The frame's emissions on a buffer of 32 bits, R104 to R107 in both. -/
theorem Represents.docFrame {s : State} {d : DocState} (h : Represents s d)
    (hlen : d.buffer.length = 32) :
    docFrame s.cfg d.buffer = s.frameEmissions.toOption := by
  rw [Machine.docFrame, frameEmissions_eq, selOffset, selWidth, h.docExtract hlen]
  cases s.extract 0 4 with
  | error _ => rfl
  | ok x =>
    simp only [Except.toOption, Except.bind, Option.bind_eq_bind, Option.bind_some, fieldList]
    cases s.cfg.schema.lookup (x.value.setWidth 4) with
    | none => rfl
    | some fs =>
      simp only [h.docFields hlen, Option.getD_some]
      cases s.fieldEmissions (x.value.setWidth 4) 0 fs <;> rfl

/-- SHIFT_IN stands for `on_bit`: the buffer grows at its head, the count saturates at 33 (R81, R82). -/
theorem Represents.shiftIn {s : State} {d : DocState} (h : Represents s d) (b : Bit) :
    Represents (s.shiftIn b) { d with buffer := b :: d.buffer } where
  cnt := by
    rw [State.shiftIn_cnt, countUp_toNat, h.cnt, List.length_cons]
    omega
  slots := by
    rintro ⟨j, hj⟩
    cases j with
    | zero => simp
    | succ k => simpa using h.slots ⟨k, by omega⟩
  fsm := h.fsm
  fl := h.fl
  out := h.out

/-- The cleared block stands for the empty buffer, when both have put out the same (R83, R113). -/
theorem represents_of_cleared {s : State} {es : List Emission} :
    Represents { s.cleared with out := es } ⟨[], es⟩ where
  cnt := rfl
  slots := fun j => by simp
  fsm := rfl
  fl := rfl
  out := rfl

/-- One deassertion keeps a started block in step with the document's decoder (R100 to R102, R113). -/
theorem Represents.cs1 {s : State} {d : DocState} (h : Represents s d) (hstart : Startable s.cfg) :
    ∃ t d', exec .cs1 s = .next t ∧ docStep s.cfg .cs1 d = some d' ∧ Represents t d' ∧
      t.cfg = s.cfg := by
  by_cases hlen : d.buffer.length = 32
  · obtain ⟨w, hw⟩ := s.exists_holdsWord
    have hready := h.frameReady hlen
    have hdoc : Machine.docFrame s.cfg d.buffer = some (frameEmissionsOf s w) := by
      rw [h.docFrame hlen, frameEmissions_of_word hstart hready hw]
      rfl
    refine ⟨_, ⟨[], d.out ++ frameEmissionsOf s w⟩, exec_cs1_of_word hstart hready hw, ?_, ?_, rfl⟩
    · simp [docStep, hlen, hdoc]
    · rw [h.out]
      exact represents_of_cleared
  · refine ⟨_, ⟨[], d.out⟩, exec_cs1_of_wrong_length (mt h.cnt_eq_iff.mp hlen), ?_, ?_, rfl⟩
    · simp [docStep, hlen]
    · rw [← h.out]
      exact represents_of_cleared

/-- Settles O47: a BIT is SHIFT_IN against `on_bit`, a CS 1 ends the frame in both, and the other
three events do nothing in either. -/
theorem blockFollowsDocument : Obligations.BlockFollowsDocument := by
  intro i s d hstart h
  cases i with
  | bit v a b => exact ⟨_, _, rfl, rfl, h.shiftIn ⟨v, a, b⟩, rfl⟩
  | cs0 => exact ⟨s, d, rfl, rfl, h, rfl⟩
  | cs1 => exact h.cs1 hstart
  | evk2 => exact ⟨s, d, rfl, rfl, h, rfl⟩
  | evk3 => exact ⟨s, d, rfl, rfl, h, rfl⟩

/-- A run of events keeps a started block in step with the document's decoder, from any two states that
stand for each other. -/
theorem Represents.runEvents (is : List Instr) {s : State} {d : DocState} (h : Represents s d)
    (hstart : Startable s.cfg) :
    ∃ t d', runEvents is s = .next t ∧ docRun s.cfg is d = some d' ∧ Represents t d' := by
  induction is generalizing s d with
  | nil => exact ⟨s, d, rfl, rfl, h⟩
  | cons i rest ih =>
    obtain ⟨t, d', hexec, hdoc, hrep, hcfg⟩ := blockFollowsDocument i s d hstart h
    obtain ⟨u, d'', hrun, hdocRun, hrep'⟩ := ih hrep (by rwa [hcfg])
    refine ⟨u, d'', ?_, ?_, hrep'⟩
    · rw [Machine.runEvents, hexec]
      exact hrun
    · simpa [docRun, hdoc, hcfg] using hdocRun

/-- Settles O48: the reset block stands for the empty buffer, and a run keeps the two in step. -/
theorem blockOutputsWhatDocumentOutputs : Obligations.BlockOutputsWhatDocumentOutputs := by
  intro cfg is hstart
  have hreset : Represents (State.resetWith cfg) ⟨[], []⟩ :=
    represents_of_cleared (s := State.resetWith cfg)
  obtain ⟨t, d, hrun, hdoc, hrep⟩ := hreset.runEvents is hstart
  exact ⟨t, d, hrun, hdoc, hrep.out, hrep.cnt, hrep.slots⟩

end Sys2Proof.Machine
end

section
/-! What a run of BIT events leaves in the slots and in the count (40_accumulator.md R81, R86), and the
frame word it forms (20_memory.md R41, R42). -/

namespace Sys2Proof.Machine

/-- A run of BIT events is one SHIFT_IN after the other (R81, R86). -/
theorem runEvents_bits (bs : List Bit) (s : State) :
    runEvents (bs.map fun b => .bit b.value b.startPos b.endPos) s =
      .next (bs.foldl State.shiftIn s) := by
  induction bs generalizing s with
  | nil => rfl
  | cons b rest ih => exact ih (s.shiftIn b)

/-- The slots after a run of SHIFT_IN: the new Bits, the latest first, pushed in below the old cells. -/
theorem foldl_shiftIn_slots (bs : List Bit) (s : State) {j : Nat} (hj : j < 32) :
    (bs.foldl State.shiftIn s).slots[j]? = (bs.reverse.map some ++ s.slots.toList)[j]? := by
  induction bs using List.reverseRecOn generalizing j with
  | nil => simp
  | append_singleton bs b ih =>
    rw [List.foldl_append, List.reverse_append]
    cases j with
    | zero => simp
    | succ k =>
      have hk : k < 32 := by omega
      simpa [hj, hk] using ih hk

/-- Slot `j` after a run of more than `j` Bits holds the `(j+1)`-th most recent one. -/
theorem foldl_shiftIn_slot (bs : List Bit) (s : State) {j : Nat} (hj : j < 32)
    (hlt : j < bs.length) :
    (bs.foldl State.shiftIn s).slots[j]? = some (some bs[bs.length - 1 - j]) := by
  rw [foldl_shiftIn_slots bs s hj, List.getElem?_append_left (by simpa using hlt)]
  simp [hlt]

/-- The count after a run of SHIFT_IN saturates at 33 (R82). -/
theorem foldl_shiftIn_cnt (bs : List Bit) {s : State} (hs : s.CntOk) :
    (bs.foldl State.shiftIn s).cnt.toNat = min (s.cnt.toNat + bs.length) 33 := by
  induction bs generalizing s with
  | nil => simpa [State.CntOk] using hs
  | cons b rest ih =>
    have hb : (s.shiftIn b).CntOk := by simp [State.CntOk]
    rw [List.foldl_cons, ih hb, State.shiftIn_cnt, countUp_toNat, List.length_cons]
    omega

/-- 32 Bits into a block that counts none make a complete frame (R23). -/
theorem foldl_shiftIn_frameReady {bs : List Bit} {s : State} (hlen : bs.length = 32)
    (hcnt : s.cnt = 0) : (bs.foldl State.shiftIn s).FrameReady := by
  refine ⟨BitVec.eq_of_toNat_eq ?_, fun j => ?_⟩
  · rw [foldl_shiftIn_cnt bs (by simp [State.CntOk, hcnt]), hcnt, hlen]
    rfl
  · have hslot := foldl_shiftIn_slot bs s j.isLt (by omega)
    obtain ⟨_, hj⟩ := Vector.getElem?_eq_some_iff.mp hslot
    simp [hj]

/-- Settles O25: the run is 32 SHIFT_INs, so slot `i` holds arrival `32 - i`, and the frame word reads
the slots. -/
theorem mostSignificantBitFirst : Obligations.MostSignificantBitFirst := by
  intro bs s hlen hcnt
  obtain ⟨w, hw⟩ := (bs.foldl State.shiftIn s).exists_holdsWord
  have hready := foldl_shiftIn_frameReady hlen hcnt
  refine ⟨_, w, runEvents_bits bs s, hready, frameWord_of_word hready.2 hw, fun i h hi => ?_⟩
  have hslot := foldl_shiftIn_slot bs s hi (by omega)
  rw [hw i hi, (State.views_of_some hslot).1]
  simp [hlen]

/-- Settles O29: the word of the 32 values is the frame word, and its bit field `[31:0]`, all of it, is
the place-value sum. -/
theorem frameWordHoldsTheSlots : Obligations.FrameWordHoldsTheSlots := by
  intro s hfull
  obtain ⟨w, hw⟩ := s.exists_holdsWord
  refine ⟨w, frameWord_of_word hfull hw, ?_, hw⟩
  calc w.toNat = w.toNat / 2 ^ 0 % 2 ^ 32 := by simp [Nat.mod_eq_of_lt w.isLt]
    _ = placeSum s.bitAt 0 32 := (placeSum_of_word hw (by omega)).symm
    _ = ∑ j ∈ Finset.range 32, (s.bitAt j).toNat * 2 ^ j := by
      simp only [placeSum_eq_sum, Nat.zero_add]

end Sys2Proof.Machine
end

section
/-! How an event word is made of its fields and how each kind decodes (30_encoding.md R56 to R59). -/

namespace Sys2Proof

/-- A low part below `2^lo` and a field of `width` bits above it make a word of `lo + width` bits. -/
theorem add_mul_two_pow_lt {lo width a b : Nat} (ha : a < 2 ^ lo) (hb : b < 2 ^ width) :
    a + b * 2 ^ lo < 2 ^ (lo + width) :=
  calc a + b * 2 ^ lo
      < 2 ^ lo + b * 2 ^ lo := Nat.add_lt_add_right ha _
    _ = 2 ^ lo * (b + 1) := by ring
    _ ≤ 2 ^ lo * 2 ^ width := Nat.mul_le_mul_left _ hb
    _ = 2 ^ (lo + width) := (Nat.pow_add 2 lo width).symm

/-- The topmost field of a word. -/
theorem bitField_top {lo width a b : Nat} (ha : a < 2 ^ lo) (hb : b < 2 ^ width) :
    bitField lo width (a + b * 2 ^ lo) = b := by
  simpa using bitField_add lo width a b 0 ha hb

/-- A field does not see what stands above it. -/
theorem bitField_add_above {lo width n : Nat} (h : lo + width ≤ n) (a b : Nat) :
    bitField lo width (a + b * 2 ^ n) = bitField lo width a := by
  obtain ⟨k, rfl⟩ := Nat.exists_eq_add_of_le h
  have hsplit : a + b * 2 ^ (lo + width + k) = a + 2 ^ lo * (2 ^ width * (b * 2 ^ k)) := by
    rw [Nat.pow_add, Nat.pow_add]; ring
  rw [bitField, hsplit, Nat.add_mul_div_left _ _ (Nat.two_pow_pos lo), Nat.add_mul_mod_self_left,
    bitField]

/-- The two low bits of an event word are its kind (R56). -/
theorem bitField_kind (ev : Nat) : bitField 0 2 ev = ev % 4 := by simp [bitField]

/-- Kind 0 is BIT, with the fields of R56. -/
theorem decode_of_kind_zero {posW ev : Nat} (h : ev % 4 = 0) :
    decode posW ev = .bit (ev.testBit 2) (bitField 3 posW ev) (bitField (posW + 3) posW ev) := by
  simp [decode, bitField_kind, h]

/-- Kind 1 is a chip-select event, of the level in bit 2 (R57). -/
theorem decode_of_kind_one {posW ev : Nat} (h : ev % 4 = 1) :
    decode posW ev = if ev.testBit 2 then .cs1 else .cs0 := by
  simp [decode, bitField_kind, h]

/-- Kind 2 is EVK 2 (R57). -/
theorem decode_of_kind_two {posW ev : Nat} (h : ev % 4 = 2) : decode posW ev = .evk2 := by
  simp [decode, bitField_kind, h]

/-- Kind 3 is EVK 3 (R57). -/
theorem decode_of_kind_three {posW ev : Nat} (h : ev % 4 = 3) : decode posW ev = .evk3 := by
  simp [decode, bitField_kind, h]

/-- A BIT event fits its word when both of its positions do (R56). -/
theorem wf_bit_iff {posW : Nat} {v : Bool} {s e : Nat} :
    (Instr.bit v s e).wf posW = true ↔ s < 2 ^ posW ∧ e < 2 ^ posW := by
  simp [Instr.wf, Instr.startFits, Instr.endFits]

/-- The kind and the value of a BIT word fill its bits 2 to 0. -/
theorem bit_low_lt (v : Bool) : v.toNat * 4 < 2 ^ 3 := by cases v <;> decide

/-- The kind, the value and the start position of a BIT word fill its bits POS_W+2 to 0. -/
theorem bit_start_lt (v : Bool) {posW s : Nat} (hs : s < 2 ^ posW) :
    v.toNat * 4 + s * 2 ^ 3 < 2 ^ (posW + 3) := by
  simpa [Nat.add_comm 3] using add_mul_two_pow_lt (bit_low_lt v) hs

/-- The word of an event that fits has EW bits (R56). -/
theorem encode_lt {posW : Nat} {i : Instr} (hi : i.wf posW = true) :
    encode posW i < 2 ^ eventWidth posW := by
  have hconst {n : Nat} (hn : n < 2 ^ 3) : n < 2 ^ eventWidth posW :=
    Nat.lt_of_lt_of_le hn (Nat.pow_le_pow_right (by decide) (by simp [eventWidth]))
  cases i with
  | bit v s e =>
    obtain ⟨hs, he⟩ := wf_bit_iff.mp hi
    have hwidth : eventWidth posW = posW + 3 + posW := by rw [eventWidth]; ring
    rw [hwidth]
    exact add_mul_two_pow_lt (bit_start_lt v hs) he
  | cs0 => exact hconst (n := 1) (by decide)
  | cs1 => exact hconst (n := 5) (by decide)
  | evk2 => exact hconst (n := 2) (by decide)
  | evk3 => exact hconst (n := 3) (by decide)

/-- The word of a BIT event decodes field by field to the event (R56, R57). -/
theorem decode_encode_bit {posW s e : Nat} (v : Bool) (hs : s < 2 ^ posW) (he : e < 2 ^ posW) :
    decode posW (encode posW (.bit v s e)) = .bit v s e := by
  have hkind : encode posW (.bit v s e) % 4 = 0 := Laws.TableBits.bit v s e posW
  have hvalue : (encode posW (.bit v s e)).testBit 2 = v := by
    have : e * 2 ^ (posW + 3) = e * 2 ^ posW * 8 := by ring
    cases v <;> simp [encode, Nat.testBit_eq_decide_div_mod_eq, this] <;> omega
  have hstart : bitField 3 posW (encode posW (.bit v s e)) = s := by
    rw [encode, bitField_add_above (by omega)]
    exact bitField_top (bit_low_lt v) hs
  have hend : bitField (posW + 3) posW (encode posW (.bit v s e)) = e :=
    bitField_top (bit_start_lt v hs) he
  rw [decode_of_kind_zero hkind, hvalue, hstart, hend]

/-- Settles O1: a BIT word decodes field by field; the other four words are constants. -/
theorem decodeEncodeRoundTrip : Obligations.DecodeEncodeRoundTrip := by
  intro posW i hi
  refine ⟨encode_lt hi, ?_⟩
  cases i with
  | bit v s e =>
    obtain ⟨hs, he⟩ := wf_bit_iff.mp hi
    exact decode_encode_bit v hs he
  | cs0 => exact decode_of_kind_one (ev := 1) rfl
  | cs1 => exact decode_of_kind_one (ev := 5) rfl
  | evk2 => exact decode_of_kind_two rfl
  | evk3 => exact decode_of_kind_three rfl

/-- Every word decodes to an event whose operands fit (R57, R59). -/
theorem decode_wf (posW ev : Nat) : (decode posW ev).wf posW = true := by
  cases h : decode posW ev with
  | bit v s e =>
    obtain ⟨hs, he⟩ := Machine.decode_bit_fits h
    exact wf_bit_iff.mpr ⟨(fitsBits_iff _ _).mp hs, (fitsBits_iff _ _).mp he⟩
  | cs0 => rfl
  | cs1 => rfl
  | evk2 => rfl
  | evk3 => rfl

/-- A BIT word of EW bits is the sum of its fields (R56). -/
theorem encode_decode_of_kind_zero {posW ev : Nat} (hkind : ev % 4 = 0)
    (hev : ev < 2 ^ eventWidth posW) : encode posW (decode posW ev) = ev := by
  have hvalue : (ev.testBit 2).toNat = ev / 4 % 2 := Nat.toNat_testBit ev 2
  have hend : bitField (posW + 3) posW ev = ev / 2 ^ (posW + 3) := by
    refine Nat.mod_eq_of_lt (Nat.div_lt_of_lt_mul ?_)
    rwa [← Nat.pow_add, show posW + 3 + posW = eventWidth posW by rw [eventWidth]; ring]
  have hpositions : ev / 8 = bitField 3 posW ev + ev / 2 ^ (posW + 3) * 2 ^ posW := by
    rw [Nat.add_comm posW 3, Nat.pow_add, ← Nat.div_div_eq_div_mul]
    exact (Nat.mod_add_div' _ _).symm
  have hscale : ev / 2 ^ (posW + 3) * 2 ^ (posW + 3) = ev / 2 ^ (posW + 3) * 2 ^ posW * 8 := by ring
  rw [decode_of_kind_zero hkind, encode, hvalue, hend, hscale]
  omega

/-- Settles O2: decoded operands fit, so O1 applies to the decoded event. -/
theorem encodeDecodeCanonical : Obligations.EncodeDecodeCanonical := fun posW ev =>
  ⟨decode_wf posW ev, (decodeEncodeRoundTrip posW _ (decode_wf posW ev)).2,
    encode_decode_of_kind_zero⟩

/-- Settles O3, kind by kind. -/
theorem eventWordForms : Obligations.EventWordForms := by
  intro posW ev
  refine ⟨decode_of_kind_zero, fun h hv => ?_, fun h hv => ?_, decode_of_kind_two,
    decode_of_kind_three, fun h s => ?_⟩
  · rw [decode_of_kind_one h, hv]
    rfl
  · rw [decode_of_kind_one h, hv]
    rfl
  · obtain h2 | h3 : ev % 4 = 2 ∨ ev % 4 = 3 := by omega
    · rw [decode_of_kind_two h2]
      rfl
    · rw [decode_of_kind_three h3]
      rfl

/-- Settles O4: the words decode alike, a chip-select word by its bits 2 to 0, a reserved word by its
kind. -/
theorem ignoredBitsHaveNoEffect : Obligations.IgnoredBitsHaveNoEffect := by
  intro posW a b s h
  suffices decode posW a = decode posW b by rw [this]
  obtain ⟨ha, hab⟩ | ⟨ha, hab⟩ := h
  · have hvalue : a.testBit 2 = b.testBit 2 := by
      simp only [Nat.testBit_eq_decide_div_mod_eq, decide_eq_decide]
      omega
    rw [decode_of_kind_one ha, decode_of_kind_one (by omega), hvalue]
  · obtain h2 | h3 : a % 4 = 2 ∨ a % 4 = 3 := by omega
    · rw [decode_of_kind_two h2, decode_of_kind_two (by omega)]
    · rw [decode_of_kind_three h3, decode_of_kind_three (by omega)]

/-- Settles O5 by decoding the eleven words of 95_test_vectors.md section 2.1. -/
theorem specWordsDecode : Obligations.SpecWordsDecode := by
  unfold Obligations.SpecWordsDecode
  decide

end Sys2Proof
end

section
/-! The annotation word and the record it carries (30_encoding.md R62). -/

namespace Sys2Proof

/-- The record fits the port when its index and its positions fit their fields (R62). -/
theorem AnnRecord.fits_iff {posW fidxW : Nat} {r : AnnRecord} :
    r.fits posW fidxW = true ↔ r.fidx < 2 ^ fidxW ∧ r.startPos < 2 ^ posW ∧ r.endPos < 2 ^ posW := by
  simp [AnnRecord.fits, and_assoc]

/-- `akind` takes one bit (R62). -/
theorem AnnKind.toBit_lt (k : AnnKind) : k.toBit < 2 ^ 1 := by cases k <;> decide

/-- `akind` is read back from its bit (R62). -/
theorem AnnKind.ofBit_toBit (k : AnnKind) : (if k.toBit = 1 then .field else .sel) = k := by
  cases k <;> rfl

/-- The lowest bit of a word, as its lowest field. -/
theorem testBit_zero_eq (w : Nat) : w.testBit 0 = decide (bitField 0 1 w = 1) := by
  simp [Nat.testBit_zero, bitField]

/-- Settles O6. Each field of the word stands on a sum of lower fields that stays below its position, and
does not see the fields above it. -/
theorem annWordRoundTrip : Obligations.AnnWordRoundTrip := by
  intro posW fidxW r hr
  obtain ⟨hfidx, hstart, hend⟩ := AnnRecord.fits_iff.mp hr
  have belowFidx : r.akind.toBit + r.reg.toNat * 2 < 2 ^ 5 :=
    add_mul_two_pow_lt r.akind.toBit_lt r.reg.isLt
  have belowValue := add_mul_two_pow_lt belowFidx hfidx
  have belowStart := add_mul_two_pow_lt belowValue r.value.isLt
  have belowEnd := add_mul_two_pow_lt belowStart hstart
  constructor
  · rw [annWidth, show 37 + fidxW + 2 * posW = 5 + fidxW + 32 + posW + posW by omega]
    exact add_mul_two_pow_lt belowEnd hend
  · have hreg : bitField 1 4 (r.akind.toBit + r.reg.toNat * 2) = r.reg.toNat :=
      bitField_top r.akind.toBit_lt r.reg.isLt
    have hkind : bitField 0 1 (r.akind.toBit + r.reg.toNat * 2) = r.akind.toBit := by
      have := r.akind.toBit_lt
      simp [bitField]
      omega
    simp (disch := omega) only [AnnRecord.ofWord, AnnRecord.toWord, testBit_zero_eq,
      bitField_add_above, hkind, hreg, bitField_top belowFidx hfidx,
      bitField_top belowValue r.value.isLt, bitField_top belowStart hstart,
      bitField_top belowEnd hend, decide_eq_true_eq, AnnKind.ofBit_toBit, BitVec.ofNat_toNat,
      BitVec.setWidth_eq]

end Sys2Proof
end

section
/-! Which configurations a step refuses (30_encoding.md R64; 60_exceptions.md R131). -/

namespace Sys2Proof.Machine

/-- A block can be started exactly when MAX_FIELDS is legal and every entry passes every check (R11,
R64, R154). -/
theorem startable_iff {cfg : Config} : Startable cfg ↔ 3 ≤ cfg.maxFields ∧ SchemaWellFormed cfg := by
  refine ⟨fun h => ⟨h.three_le_maxFields, fun check _ hp => h.meets check hp⟩, fun ⟨hmax, hwf⟩ => ?_⟩
  rw [Startable, Config.problem, if_neg (by omega)]
  simp only [Option.orElse_eq_none, Schema.idsProblem, Schema.widthProblem, Schema.rangeProblem,
    Schema.totalProblem, Schema.disjointProblem, Schema.countProblem,
    Schema.fieldProblem_eq_none, Schema.entryProblem_eq_none, firstBadField_eq_none,
    firstBadField_overlaps_eq_none, FieldDesc.overlaps_eq_false]
  refine ⟨fun p hp => ?_, fun p hp d hd => ?_, fun p hp d hd => ?_, fun p hp d hd => ?_,
    fun p hp => ⟨by simp, hwf .wfDisjoint p hp⟩, fun p hp => ?_⟩
  · simpa [EntryMeets] using hwf .wfIds p hp
  · simpa [Nat.one_le_iff_ne_zero] using hwf .wfWidth p hp d hd
  · simpa using hwf .wfRange p hp d hd
  · simpa [Transform.totalOn_iff] using hwf .wfTotal p hp d hd
  · simpa [EntryMeets] using hwf .wfCount p hp

/-- A step refuses exactly the configurations that fail their checks; no event and no edge refuses
(R131). -/
theorem step_refused_iff {s : State} : (∃ r, step s = .refused r) ↔ ¬ Startable s.cfg := by
  unfold step Startable
  cases hproblem : s.cfg.problem with
  | some r => simp
  | none =>
    cases s.fetch with
    | event i t => simp [exec_ne_refused]
    | edge p t => simp [clockEdge_ne_refused]
    | hold => simp

/-- Settles O12: a step refuses what cannot be started, and with a legal MAX_FIELDS only the schema's
checks are left. -/
theorem schemaChecksExact : Obligations.SchemaChecksExact := by
  intro s hmax
  rw [step_refused_iff, startable_iff, and_iff_right hmax]

end Sys2Proof.Machine
end

section
/-! WORD32 fills the block, and EXTRACT reads the field back (30_encoding.md R66, R70). -/

namespace Sys2Proof.Machine

/-- The Bits that `WORD32 w, p0` feeds, in order of arrival (R70). -/
def word32Bits (w : Word32) (p0 : Nat) : List Bit :=
  (List.range 32).map fun k => ⟨w.getLsbD (31 - k), p0 + 2 * k, p0 + 2 * k + 1⟩

/-- `WORD32 w, p0` is the BIT events of those Bits. -/
theorem asmWord32_eq (w : Word32) (p0 : Nat) :
    asmWord32 w p0 = (word32Bits w p0).map fun b => .bit b.value b.startPos b.endPos := by
  simp [asmWord32, word32Bits]

/-- Slot `j` holds arrival `31 - j` of `WORD32 w, p0`, which carries bit `j` of `w` (R41, R70). -/
theorem foldl_shiftIn_word32 (w : Word32) (p0 : Nat) (s : State) {j : Nat} (hj : j < 32) :
    ((word32Bits w p0).foldl State.shiftIn s).slots[j]? =
      some (some ⟨w.getLsbD j, p0 + 2 * (31 - j), p0 + 2 * (31 - j) + 1⟩) := by
  rw [foldl_shiftIn_slot _ s hj (by simpa [word32Bits] using hj)]
  simp [word32Bits, show 31 - (31 - j) = j by omega]

/-- Settles O26: the 32 events are 32 SHIFT_INs, which make a complete frame of the word `w`. -/
theorem wordThirtyTwoFeedsItsWord : Obligations.WordThirtyTwoFeedsItsWord := by
  intro w p0 s hcnt
  have hready : ((word32Bits w p0).foldl State.shiftIn s).FrameReady :=
    foldl_shiftIn_frameReady (by simp [word32Bits]) hcnt
  have hword : ((word32Bits w p0).foldl State.shiftIn s).HoldsWord w := fun j hj =>
    (State.views_of_some (foldl_shiftIn_word32 w p0 s hj)).1.symm
  refine ⟨_, ?_, hready.1, frameWord_of_word hready.2 hword, fun j => ?_⟩
  · rw [asmWord32_eq, runEvents_bits]
  · obtain ⟨_, hslot⟩ := Vector.getElem?_eq_some_iff.mp (foldl_shiftIn_word32 w p0 s j.isLt)
    exact hslot

/-- The field of a held word is the place-value sum of its slots (R66). -/
theorem fieldOf_toNat_eq_placeSum {s : State} {w : Word32} (hw : s.HoldsWord w) {offset width : Nat}
    (h : offset + width ≤ 32) : (fieldOf w offset width).toNat = placeSum s.bitAt offset width := by
  have hlt : placeSum s.bitAt offset width < 2 ^ 32 :=
    Nat.lt_of_lt_of_le (placeSum_lt _ _ _) (Nat.pow_le_pow_right (by decide) (by omega))
  rw [fieldOf, ← placeSum_of_word hw h, BitVec.toNat_ofNat, Nat.mod_eq_of_lt hlt]

/-- Settles O28. -/
theorem extractReadsTheField : Obligations.ExtractReadsTheField := by
  intro s w offset width hs hw h1 h2
  refine ⟨extract_of_word hs hw h1 h2, ?_⟩
  rw [fieldOf_toNat_eq_placeSum hw h2, placeSum_eq_sum]

end Sys2Proof.Machine
end

section
/-! An edge by the state of the block (30_encoding.md R61, R71; 70_reset_and_hazards.md R159, R160), and the
word the host places. -/

namespace Sys2Proof.Machine

/-- `ann_valid` read as R160 words it. -/
theorem annValid_eq_true_iff (rst : Bool) (s : State) :
    annValid rst s = true ↔ rst = false ∧ s.fsm = .flushing := by
  simp [annValid]

/-- An edge of a block that is ready: the event on the port, where there is one (R61, R160). -/
theorem clockEdge_of_ready {p : Pins} {s : State} (h : inReady p.rst s = true) :
    clockEdge p s =
      if p.inValid then acceptEvent (decode s.cfg.posW p.inWord) s else .next s := by
  obtain ⟨hrst, hfsm⟩ := (inReady_eq_true_iff _ _).mp h
  simp [clockEdge, hrst, hfsm]

/-- An edge of a block that is not ready: a reset, or an edge of the flush (R151, R160). -/
theorem clockEdge_of_not_ready {p : Pins} {s : State} (h : inReady p.rst s = false) :
    clockEdge p s =
      if p.rst then .next s.hardReset else if p.annReady then raise s.deliver else .next s := by
  cases hrst : p.rst with
  | true => simp [clockEdge, hrst]
  | false =>
    cases hfsm : s.fsm with
    | accumulating => simp [inReady, hrst, hfsm] at h
    | flushing => simp [clockEdge, hrst, hfsm]

/-- A block that is flushing is not ready (R61). -/
theorem inReady_of_flushing {s : State} (rst : Bool) (h : s.fsm = .flushing) :
    inReady rst s = false := by
  simp [inReady, h]

/-- A FLUSHING edge without reset: the record due is delivered when the sink accepts (R160). -/
theorem clockEdge_of_flushing {p : Pins} {s : State} (hrst : p.rst = false) (hfsm : s.fsm = .flushing) :
    clockEdge p s = if p.annReady then raise s.deliver else .next s := by
  simp [clockEdge_of_not_ready (inReady_of_flushing p.rst hfsm), hrst]

/-- Settles O49: a ready block looks at `in_word` only with `in_valid`, and one that is not ready never. -/
theorem inputHandshake : Obligations.InputHandshake := by
  intro p s
  refine ⟨inReady_eq_true_iff _ _, fun hready hvalid => ?_, fun h ev => ?_, fun hready hvalid => ?_⟩
  · rw [clockEdge_of_ready hready, if_pos hvalid]
  · by_cases hready : inReady p.rst s = true
    · have hvalid : p.inValid = false := h.resolve_left (by simp [hready])
      rw [clockEdge_of_ready hready, clockEdge_of_ready (p := { p with inWord := ev }) hready]
      simp [hvalid]
    · rw [Bool.not_eq_true] at hready
      rw [clockEdge_of_not_ready hready, clockEdge_of_not_ready (p := { p with inWord := ev }) hready]
  · simp [clockEdge_of_ready hready, hvalid]

/-- Edges that each leave a state as it is leave it as it is together. -/
theorem runEdges_of_fixed {s : State} {ps : List Pins} (h : ∀ q ∈ ps, clockEdge q s = .next s) :
    runEdges ps s = .next s := by
  induction ps with
  | nil => rfl
  | cons q rest ih =>
    obtain ⟨hq, hrest⟩ := List.forall_mem_cons.mp h
    rw [runEdges, hq]
    exact ih hrest

/-- Settles O55: a FLUSHING edge without reset on which the sink does not accept changes nothing. -/
theorem sinkHoldsTheFlush : Obligations.SinkHoldsTheFlush := by
  refine ⟨annValid_eq_true_iff, fun s ps hfsm hps => ⟨runEdges_of_fixed fun q hq => ?_, ?_, ?_⟩⟩
  · obtain ⟨hrst, hready⟩ := hps q hq
    simp [clockEdge_of_flushing hrst hfsm, hready]
  · exact (annValid_eq_true_iff _ _).mpr ⟨rfl, hfsm⟩
  · exact inReady_of_flushing false hfsm

/-- Settles O11: the placed word is the next input of a block that ACCUMULATES, so O8 applies. -/
theorem placedWordRunsNext : Obligations.PlacedWordRunsNext := fun s nbits w hstart =>
  stepRunsDecodedEvent (s.withFetchWord nbits w) (w % 2 ^ nbits) s.inputs hstart rfl rfl

end Sys2Proof.Machine
end

section
/-! A flush, record by record (41_frame_decoder.md R119; 70_reset_and_hazards.md R159, R160), and the record
due on the output port (30_encoding.md R62). -/

namespace Sys2Proof.Machine

/-- A field's value from the latched word of a complete frame, and its span (R103, R105). -/
theorem extractLatched_of_word {s : State} (hs : s.FrameReady) (w : Word32) {offset width : Nat}
    (h1 : 1 ≤ width) (h2 : offset + width ≤ 32) :
    s.extractLatched w offset width =
      .ok ⟨fieldOf w offset width, s.spanStart offset width, s.spanEnd offset width⟩ := by
  simp [State.extractLatched, canExtract_of_frameReady hs h1 h2, span_of_full hs.2 h1 h2, fieldOf,
    bitField, bind, Except.bind]

/-- The selector record is due in phase 0 (R104, R160). -/
theorem dueEmission_selector {s : State} (hs : s.FrameReady) (w : Word32) (idx : Nat) :
    s.dueEmission ⟨w, w.setWidth 4, idx, .selector⟩ = .ok (selectorEmission s w) := by
  have hsel := extractLatched_of_word hs w (offset := selOffset) (width := selWidth) (by decide) (by decide)
  simp only [State.dueEmission, hsel, bind, Except.bind]
  rfl

/-- The record of field `fl_idx` is due in phase 1 (R107, R160). -/
theorem dueEmission_field {s : State} (hstart : Startable s.cfg) (hs : s.FrameReady) {w : Word32}
    {k : Nat} {d : FieldDesc} (hd : (fieldList s.cfg.schema (w.setWidth 4))[k]? = some d) :
    s.dueEmission ⟨w, w.setWidth 4, k, .fields⟩ = .ok (fieldEmissionOf s w k d) := by
  obtain ⟨h1, h2, htotal⟩ := hstart.field (List.mem_of_getElem? hd)
  have hextract := extractLatched_of_word hs w h1 h2
  have htext := render_of_total (reg := w.setWidth 4) (k := k) htotal
    (fieldOf_toNat_lt w d.offset d.width)
  simp [State.dueEmission, hd, hextract, fieldEmission, htext, fieldEmissionOf, bind, Except.bind]

/-- The flush registers while record `m` of the frame of `w` is due: the selector, then the fields. -/
def FlushRegs.due (w : Word32) : Nat → FlushRegs
  | 0 => ⟨w, w.setWidth 4, 0, .selector⟩
  | k + 1 => ⟨w, w.setWidth 4, k, .fields⟩

/-- The block while record `m` of its frame `w` is due: the records before it are delivered (R160). -/
def State.flushingAt (s : State) (w : Word32) (m : Nat) : State :=
  { s with fsm := .flushing, fl := some (.due w m), out := s.out ++ (frameEmissionsOf s w).take m }

/-- A frame's records: the selector's and one for each field (R119). -/
theorem frameEmissionsOf_length (s : State) (w : Word32) :
    (frameEmissionsOf s w).length = (fieldList s.cfg.schema (w.setWidth 4)).length + 1 := by
  simp [frameEmissionsOf]

/-- With the registers of record `m`, record `m` of the frame is due. -/
theorem dueEmission_due {s : State} (hstart : Startable s.cfg) (hs : s.FrameReady) {w : Word32} {m : Nat}
    {e : Emission} (he : (frameEmissionsOf s w)[m]? = some e) : s.dueEmission (.due w m) = .ok e := by
  cases m with
  | zero =>
    obtain rfl : selectorEmission s w = e := by simpa [frameEmissionsOf] using he
    exact dueEmission_selector hs w 0
  | succ k =>
    obtain ⟨d, hd, rfl⟩ : ∃ d, (fieldList s.cfg.schema (w.setWidth 4))[k]? = some d ∧
        fieldEmissionOf s w k d = e := by simpa [frameEmissionsOf] using he
    exact dueEmission_field hstart hs hd

/-- Delivering a record that is not the frame's last makes the next one due (R160). -/
theorem FlushRegs.due_afterDelivery {sch : Schema} {w : Word32} {m : Nat}
    (h : m < (fieldList sch (w.setWidth 4)).length) :
    (FlushRegs.due w m).afterDelivery sch = some (.due w (m + 1)) := by
  cases m with
  | zero =>
    have hne : fieldList sch (w.setWidth 4) ≠ [] := List.ne_nil_of_length_pos h
    have hknown : regKnown sch (w.setWidth 4) = true := by
      by_contra hunknown
      exact hne (fieldList_of_unknown (by simpa using hunknown))
    simp [FlushRegs.due, FlushRegs.afterDelivery, hne, hknown]
  | succ k =>
    have hlast : k ≠ (fieldList sch (w.setWidth 4)).length - 1 := by omega
    simp [FlushRegs.due, FlushRegs.afterDelivery, hlast]

/-- The accepting edge of CS 1 on a complete frame makes its first record due (R160). -/
theorem clockEdge_startFlush {p : Pins} {s : State} {w : Word32} (hs : s.FrameReady)
    (hw : s.HoldsWord w) (hfsm : s.fsm = .accumulating) (hrst : p.rst = false)
    (hvalid : p.inValid = true) (hcs1 : decode s.cfg.posW p.inWord = .cs1) :
    clockEdge p s = .next (s.flushingAt w 0) := by
  have hlen : lenOk s = true := (lenOk_iff s).mpr hs.1
  rw [clockEdge_of_ready ((inReady_eq_true_iff _ _).mpr ⟨hrst, hfsm⟩), if_pos hvalid, hcs1]
  simp [acceptEvent, hlen, State.startFlush, frameWord_of_word hs.2 hw, bind, Except.bind,
    State.flushingAt, FlushRegs.due]

/-- The word on the port is the annotation word of the record due (R62, R160). -/
theorem annWord_of_due {s : State} {r : FlushRegs} {e : Emission} (hfl : s.fl = some r)
    (hdue : s.dueEmission r = .ok e) :
    annWord s = .ok (e.record.toWord s.cfg.posW s.cfg.fidxW) := by
  simp [annWord, hfl, hdue, bind, Except.bind]

/-- A delivery that is not the last hands over the record due and moves on (R160). -/
theorem deliver_of_due {s : State} {r r' : FlushRegs} {e : Emission} (hfl : s.fl = some r)
    (hdue : s.dueEmission r = .ok e) (hnext : r.afterDelivery s.cfg.schema = some r') :
    s.deliver = .ok { s.emit [e] with fl := some r' } := by
  simp [State.deliver, hfl, hdue, hnext, bind, Except.bind]

section Flush
variable {s : State} {w : Word32}

/-- While record `m` is due, record `m` of the frame is the record due. -/
theorem dueEmission_flushingAt (hstart : Startable s.cfg) (hs : s.FrameReady) {m : Nat} {e : Emission}
    (he : (frameEmissionsOf s w)[m]? = some e) : (s.flushingAt w m).dueEmission (.due w m) = .ok e :=
  dueEmission_due (s := s.flushingAt w m) hstart hs he

/-- A delivery that is not the frame's last makes the next record due (R159, R160). -/
theorem deliver_flushingAt (hstart : Startable s.cfg) (hs : s.FrameReady) {m : Nat}
    (hm : m + 1 < (frameEmissionsOf s w).length) :
    (s.flushingAt w m).deliver = .ok (s.flushingAt w (m + 1)) := by
  have hlt : m < (frameEmissionsOf s w).length := by omega
  have hdue := dueEmission_flushingAt hstart hs (List.getElem?_eq_getElem hlt)
  have hnext : (FlushRegs.due w m).afterDelivery s.cfg.schema = some (.due w (m + 1)) :=
    FlushRegs.due_afterDelivery (by rw [frameEmissionsOf_length] at hm; omega)
  rw [deliver_of_due rfl hdue hnext]
  simp [State.flushingAt, State.emit, List.append_assoc]

/-- Edges without reset, fewer of them accepting than records are left, deliver one record for each that
accepts, and leave the next one due (R71, R159, R160). -/
theorem runEdges_flushingAt (hstart : Startable s.cfg) (hs : s.FrameReady) {ps : List Pins}
    (hps : ∀ q ∈ ps, q.rst = false) {m : Nat}
    (hm : m + ps.countP Pins.annReady < (frameEmissionsOf s w).length) :
    runEdges ps (s.flushingAt w m) = .next (s.flushingAt w (m + ps.countP Pins.annReady)) := by
  induction ps generalizing m with
  | nil => rfl
  | cons q rest ih =>
    obtain ⟨hq, hrest⟩ := List.forall_mem_cons.mp hps
    rw [runEdges, clockEdge_of_flushing hq rfl]
    cases hready : q.annReady with
    | true =>
      rw [List.countP_cons_of_pos hready] at hm ⊢
      rw [if_pos rfl, deliver_flushingAt hstart hs (by omega), raise_ok,
        show m + (rest.countP Pins.annReady + 1) = m + 1 + rest.countP Pins.annReady by omega]
      exact ih hrest (by omega)
    | false =>
      rw [List.countP_cons_of_neg (by simp [hready])] at hm ⊢
      exact ih hrest hm

end Flush

/-- Settles O53: the accepting edge makes record 0 due, and each accepting edge after it the next. -/
theorem flushDeliversInOrder : Obligations.FlushDeliversInOrder := by
  intro s w p ps hstart hs hw hfsm hrst hvalid hcs1 hps hcount
  have hrun : runEdges ps (s.flushingAt w 0) = .next (s.flushingAt w (ps.countP Pins.annReady)) := by
    simpa using runEdges_flushingAt hstart hs hps (m := 0) (by simpa using hcount)
  have he := List.getElem?_eq_getElem hcount
  refine ⟨s.flushingAt w (ps.countP Pins.annReady), _, ?_, rfl, rfl, rfl, rfl, he,
    annWord_of_due rfl (dueEmission_flushingAt hstart hs he)⟩
  rw [runEdges, clockEdge_startFlush hs hw hfsm hrst hvalid hcs1]
  exact hrun

/-- Every tag fits POS_W bits, 0 where a slot holds none (R22). -/
theorem State.TagsFit.tags_lt {s : State} (h : s.TagsFit) (j : Nat) :
    s.startAt j < 2 ^ s.cfg.posW ∧ s.endAt j < 2 ^ s.cfg.posW := by
  rcases hslot : s.slots[j]? with _ | _ | b
  · simp [State.startAt, State.endAt, hslot]
  · simp [State.startAt, State.endAt, hslot]
  · obtain ⟨hj, hb⟩ := Vector.getElem?_eq_some_iff.mp hslot
    obtain ⟨-, hstart, hend⟩ := State.views_of_some hslot
    rw [hstart, hend, ← fitsBits_iff, ← fitsBits_iff]
    exact h ⟨j, hj⟩ b hb

/-- A span is made of tags, so its two positions fit (R105). -/
theorem State.TagsFit.span_lt {s : State} (h : s.TagsFit) (offset width : Nat) :
    s.spanStart offset width < 2 ^ s.cfg.posW ∧ s.spanEnd offset width < 2 ^ s.cfg.posW := by
  unfold State.spanStart State.spanEnd
  cases s.cfg.spanMode with
  | doc => exact ⟨(h.tags_lt _).1, (h.tags_lt _).2⟩
  | temporal => exact ⟨(h.tags_lt _).1, (h.tags_lt _).2⟩

/-- In a started block every record of a frame fits the port (R62, R64 WF_COUNT). -/
theorem frameEmissionsOf_fits {s : State} (hstart : Startable s.cfg) (htags : s.TagsFit) {w : Word32}
    {m : Nat} {e : Emission} (he : (frameEmissionsOf s w)[m]? = some e) :
    e.record.fits s.cfg.posW s.cfg.fidxW = true := by
  rw [AnnRecord.fits_iff]
  cases m with
  | zero =>
    obtain rfl : selectorEmission s w = e := by simpa [frameEmissionsOf] using he
    exact ⟨Nat.two_pow_pos _, htags.span_lt 0 4⟩
  | succ k =>
    obtain ⟨d, hd, rfl⟩ : ∃ d, (fieldList s.cfg.schema (w.setWidth 4))[k]? = some d ∧
        fieldEmissionOf s w k d = e := by simpa [frameEmissionsOf] using he
    have hk : k < 2 ^ s.cfg.fidxW :=
      calc k < (fieldList s.cfg.schema (w.setWidth 4)).length := (List.getElem?_eq_some_iff.mp hd).1
        _ ≤ s.cfg.maxFields := hstart.fieldList_length _
        _ ≤ 2 ^ s.cfg.fidxW := s.cfg.maxFields_le
    exact ⟨hk, htags.span_lt d.offset d.width⟩

/-- A flushing block that meets the invariant holds a complete frame, and its registers are those of one of
the frame's records (R28). -/
theorem State.Inv.flushing {s : State} (hs : s.Inv) (hfsm : s.fsm = .flushing) :
    s.FrameReady ∧ ∃ w m e, s.fl = some (.due w m) ∧ (frameEmissionsOf s w)[m]? = some e := by
  have hflush := hs.flushOk
  cases hfl : s.fl with
  | none => simp [State.FlushOk, hfsm, hfl] at hflush
  | some r =>
    obtain ⟨hcnt, -, hreg, hidx⟩ := (flushOk_iff_of_flushing hfsm hfl).mp hflush
    refine ⟨⟨hcnt, hs.slotsOk.full hcnt⟩, r.word, ?_⟩
    obtain ⟨word, reg, idx, phase⟩ := r
    obtain rfl : reg = word.setWidth 4 := hreg
    cases phase with
    | selector =>
      obtain rfl : idx = 0 := hidx
      exact ⟨0, _, rfl, rfl⟩
    | fields =>
      have hlt : idx + 1 < (frameEmissionsOf s word).length := by
        rw [frameEmissionsOf_length]
        exact Nat.succ_lt_succ hidx
      exact ⟨idx + 1, _, rfl, List.getElem?_eq_getElem hlt⟩

/-- Settles O56: the record due is one of the frame's, which fits the port, so O6 reads it back. -/
theorem portCarriesTheRecordDue : Obligations.PortCarriesTheRecordDue := by
  intro s hs hstart hfsm
  obtain ⟨hready, w, m, e, hfl, he⟩ := hs.flushing hfsm
  have hdue := dueEmission_due hstart hready he
  obtain ⟨hlt, hback⟩ := annWordRoundTrip _ _ _ (frameEmissionsOf_fits hstart hs.tagsFit he)
  exact ⟨_, e, _, hfl, hdue, annWord_of_due hfl hdue, hlt, hback⟩

end Sys2Proof.Machine
end

section
/-! The line of R69 written for an event, read back (30_encoding.md R69; the numerals of R108). -/

namespace Sys2Proof.Machine

/-- The character `decDigits` writes for a digit is a digit, and is read as that digit. -/
theorem digitChar_read {d : Nat} (h : d < 10) :
    (Char.ofNat (48 + d)).isDigit ∧ digitValue (Char.ofNat (48 + d)) = some d := by
  revert d
  decide

/-- Every character that `decDigits` writes is a digit. -/
theorem isDigit_of_mem_decDigits {fuel n : Nat} {acc : List Char} (hacc : ∀ c ∈ acc, c.isDigit) :
    ∀ c ∈ decDigits fuel n acc, c.isDigit := by
  induction fuel generalizing n acc with
  | zero => exact hacc
  | succ k ih =>
    rw [decDigits]
    split
    next hlt => exact List.forall_mem_cons.mpr ⟨(digitChar_read hlt).1, hacc⟩
    next => exact ih (List.forall_mem_cons.mpr ⟨(digitChar_read (by omega)).1, hacc⟩)

/-- `decDigits` writes at least one digit before `acc`. -/
theorem decDigits_ne_nil {fuel n : Nat} {acc : List Char} (h : n < fuel ∨ acc ≠ []) :
    decDigits fuel n acc ≠ [] := by
  induction fuel generalizing n acc with
  | zero => simpa [decDigits] using h
  | succ k ih =>
    rw [decDigits]
    split
    · simp
    · exact ih (.inr (by simp))

/-- Reading one digit. -/
theorem readDigits_cons {d : Nat} (h : d < 10) (cs : List Char) (acc : Nat) :
    readDigits 10 (Char.ofNat (48 + d) :: cs) acc = readDigits 10 cs (acc * 10 + d) := by
  simp [readDigits, (digitChar_read h).2, h]

/-- The digits of `n` are read as `n`, and reading goes on with what stands after them. -/
theorem readDigits_decDigits {fuel n : Nat} (h : n < fuel) (acc : List Char) :
    readDigits 10 (decDigits fuel n acc) 0 = readDigits 10 acc n := by
  induction fuel generalizing n acc with
  | zero => omega
  | succ k ih =>
    rw [decDigits]
    split
    next hlt => rw [readDigits_cons hlt, Nat.zero_mul, Nat.zero_add]
    next => rw [ih (by omega), readDigits_cons (by omega), Nat.div_add_mod']

/-- A numeral has at least one digit (R108). -/
theorem dec_toList_ne_nil (n : Nat) : (dec n).toList ≠ [] := by
  simpa [dec] using decDigits_ne_nil (.inl (Nat.lt_succ_self n))

/-- A numeral holds digits only (R108). -/
theorem not_mem_dec (n : Nat) {c : Char} (hc : c.isDigit = false) : c ∉ (dec n).toList := by
  intro h
  have := isDigit_of_mem_decDigits (acc := []) (by simp) c (by simpa [dec] using h)
  simp [hc] at this

/-- A non-empty text without an `x` is read in base 10. -/
theorem readNumber_decimal {cs : List Char} (hne : cs ≠ []) (hx : 'x' ∉ cs) :
    readNumber cs = readDigits 10 cs 0 := by
  unfold readNumber
  split <;> simp_all

/-- A numeral reads back as its number. -/
theorem readNumber_dec (n : Nat) : readNumber (dec n).toList = some n := by
  rw [readNumber_decimal (dec_toList_ne_nil n) (not_mem_dec n (by decide))]
  simpa [dec, readDigits] using readDigits_decDigits (Nat.lt_succ_self n) []

/-- A text without the separator is one piece. -/
theorem splitChars_of_not_mem {c : Char} {xs : List Char} (h : c ∉ xs) : splitChars c xs = [xs] := by
  induction xs with
  | nil => rfl
  | cons x rest ih =>
    obtain ⟨hx, hrest⟩ := List.ne_and_not_mem_of_not_mem_cons h
    simp [splitChars, ih hrest, Ne.symm hx]

/-- The text before the first separator is the first piece. -/
theorem splitChars_append {c : Char} {xs : List Char} (h : c ∉ xs) (ys : List Char) :
    splitChars c (xs ++ c :: ys) = xs :: splitChars c ys := by
  induction xs with
  | nil => simp [splitChars]
  | cons x rest ih =>
    obtain ⟨hx, hrest⟩ := List.ne_and_not_mem_of_not_mem_cons h
    simp [splitChars, ih hrest, Ne.symm hx]

/-- A text without a space at its head keeps all its characters. -/
theorem dropWhile_space_eq_self {cs : List Char} (h : cs.head? ≠ some ' ') :
    cs.dropWhile (· == ' ') = cs := by
  cases cs with
  | nil => rfl
  | cons c rest =>
    have hc : c ≠ ' ' := by simpa using h
    simp [hc]

/-- A text without a space at either end is trimmed already. -/
theorem trimSpaces_eq_self {cs : List Char} (hfirst : cs.head? ≠ some ' ')
    (hlast : cs.getLast? ≠ some ' ') : trimSpaces cs = cs := by
  rw [trimSpaces, dropWhile_space_eq_self hfirst, dropWhile_space_eq_self (by simpa using hlast),
    List.reverse_reverse]

/-- A numeral after a space is trimmed to the numeral. -/
theorem trimSpaces_dec (n : Nat) : trimSpaces (' ' :: (dec n).toList) = (dec n).toList := by
  have hspace : ' ' ∉ (dec n).toList := not_mem_dec n (by decide)
  calc trimSpaces (' ' :: (dec n).toList)
      = trimSpaces (dec n).toList := by simp [trimSpaces]
    _ = (dec n).toList :=
      trimSpaces_eq_self (mt List.mem_of_head? hspace) (mt List.mem_of_getLast? hspace)

/-- What stands after the name on the line of a BIT event. -/
def bitArguments (v : Bool) (s e : Nat) : List Char :=
  (' ' :: (dec v.toNat).toList) ++ ',' :: ((' ' :: (dec s).toList) ++ ',' :: ' ' :: (dec e).toList)

/-- The line of a BIT event is its name and its arguments (R69). -/
theorem eventText_bit (v : Bool) (s e : Nat) :
    (eventText (.bit v s e)).toList = ['B', 'I', 'T'] ++ bitArguments v s e := by
  simp [eventText, bitArguments]

/-- The commas split the arguments into the numerals, each of which is read as its number. -/
theorem read_bitArguments (v : Bool) (s e : Nat) :
    allSome ((splitChars ',' (bitArguments v s e)).map fun a => readNumber (trimSpaces a)) =
      some [v.toNat, s, e] := by
  have hcomma (n : Nat) : ',' ∉ ' ' :: (dec n).toList := by
    simpa using not_mem_dec n (c := ',') (by decide)
  rw [bitArguments, splitChars_append (hcomma _), splitChars_append (hcomma _),
    splitChars_of_not_mem (hcomma _)]
  simp [trimSpaces_dec, readNumber_dec, allSome]

/-- No comment starts on the line of a BIT event. -/
theorem takeWhile_comment_eventText_bit (v : Bool) (s e : Nat) :
    (eventText (.bit v s e)).toList.takeWhile (· != ';') = ['B', 'I', 'T'] ++ bitArguments v s e := by
  have hcomment (n : Nat) : ';' ∉ (dec n).toList := not_mem_dec n (by decide)
  rw [eventText_bit, List.takeWhile_eq_self_iff]
  intro c hc
  have : c ≠ ';' := by
    rintro rfl
    simp [bitArguments, hcomment] at hc
  simpa using this

/-- The line of a BIT event has no space at either end: its last character is one of a numeral. -/
theorem trimSpaces_bitLine (v : Bool) (s e : Nat) :
    trimSpaces (['B', 'I', 'T'] ++ bitArguments v s e) = ['B', 'I', 'T'] ++ bitArguments v s e := by
  have hlast : ['B', 'I', 'T'] ++ bitArguments v s e =
      (['B', 'I', 'T', ' '] ++ (dec v.toNat).toList ++ [',', ' '] ++ (dec s).toList ++ [',', ' ']) ++
        (dec e).toList := by
    simp [bitArguments]
  refine trimSpaces_eq_self (by simp) ?_
  rw [hlast, List.getLast?_append_of_ne_nil _ (dec_toList_ne_nil e)]
  exact mt List.mem_of_getLast? (not_mem_dec e (by decide))

/-- The line of a BIT event reads back (R69): the name before the first space, then three numerals. -/
theorem readLine_eventText_bit (v : Bool) (s e : Nat) :
    readLine (eventText (.bit v s e)) = some [.bit v s e] := by
  have hargs : (['B', 'I', 'T'] ++ bitArguments v s e).dropWhile (· != ' ') = bitArguments v s e := by
    simp [bitArguments]
  have hname : String.ofList ((['B', 'I', 'T'] ++ bitArguments v s e).takeWhile (· != ' ')) = "BIT" := by
    simp [bitArguments]
  have hevent : readEvent "BIT" [v.toNat, s, e] = some [.bit v s e] := by
    cases v <;> simp [readEvent]
  simp only [readLine, takeWhile_comment_eventText_bit, trimSpaces_bitLine, hargs, hname,
    read_bitArguments]
  simp [hevent]

/-- Settles O7: the BIT line is read numeral by numeral, the other four lines are fixed texts. -/
theorem eventTextReadsBack : Obligations.EventTextReadsBack := by
  intro i
  cases i with
  | bit v s e => exact readLine_eventText_bit v s e
  | cs0 => decide
  | cs1 => decide
  | evk2 => decide
  | evk3 => decide

end Sys2Proof.Machine
end

section
/-! The accumulation family: a run of events without CS 1 is a run of SHIFT_IN (40_accumulator.md R81 to
R90), and where EXTRACT stops (R85, R134). -/

namespace Sys2Proof.Machine

/-- CS 0 and the reserved kinds answer the state they are given (R88, R89). -/
theorem exec_of_ignored {i : Instr} (h : i = .cs0 ∨ i = .evk2 ∨ i = .evk3) (s : State) :
    exec i s = .next s := by
  obtain rfl | rfl | rfl := h <;> rfl

/-- A word that ends in the bits 001 is CS 0 (R57). -/
theorem decode_of_low_bits_one {posW ev : Nat} (h : ev % 8 = 1) : decode posW ev = .cs0 := by
  have hvalue : ev.testBit 2 = false := by
    rw [Nat.testBit_eq_decide_div_mod_eq, decide_eq_false_iff_not]
    omega
  rw [decode_of_kind_one (by omega), hvalue]
  rfl

/-- Without CS 1 a run shifts in the Bits of its BIT events, in order, and does nothing else. -/
theorem runEvents_of_not_mem_cs1 {is : List Instr} (h : .cs1 ∉ is) (s : State) :
    runEvents is s = .next ((bitsOf is).foldl State.shiftIn s) := by
  induction is generalizing s with
  | nil => rfl
  | cons i rest ih =>
    obtain ⟨hi, hrest⟩ := not_or.mp (mt List.mem_cons.mpr h)
    cases i with
    | bit v a b => exact ih hrest (s.shiftIn ⟨v, a, b⟩)
    | cs1 => exact absurd rfl hi
    | cs0 => exact ih hrest s
    | evk2 => exact ih hrest s
    | evk3 => exact ih hrest s

/-- A run of SHIFT_IN writes the slots and the count only (R81). -/
theorem foldl_shiftIn_frame (bs : List Bit) (s : State) :
    bs.foldl State.shiftIn s =
      { s with slots := (bs.foldl State.shiftIn s).slots, cnt := (bs.foldl State.shiftIn s).cnt } := by
  induction bs generalizing s with
  | nil => rfl
  | cons b rest ih => exact ih (s.shiftIn b)

/-- Into empty slots a run of SHIFT_IN puts its Bits, the latest in slot 0; slots past them stay empty. -/
theorem foldl_shiftIn_slot_of_empty (bs : List Bit) {s : State}
    (hempty : ∀ j : Fin 32, s.slots[j] = none) (j : Fin 32) :
    (bs.foldl State.shiftIn s).slots[j] = bs.reverse[j.val]? := by
  apply Option.some.inj
  have hslots : s.slots = Vector.replicate 32 none :=
    Vector.ext fun i hi => by simpa using hempty ⟨i, hi⟩
  calc some (bs.foldl State.shiftIn s).slots[j]
      = (bs.foldl State.shiftIn s).slots[j.val]? := by simp
    _ = (bs.reverse.map some ++ List.replicate 32 none)[j.val]? := by
      rw [foldl_shiftIn_slots bs s j.isLt, hslots, Vector.toList_replicate]
    _ = some bs.reverse[j.val]? := by
      by_cases hj : j.val < bs.length
      · rw [List.getElem?_append_left (by simpa using hj)]
        simp [hj]
      · rw [List.getElem?_append_right (by simpa using hj), List.getElem?_replicate_of_lt (by omega),
          List.getElem?_eq_none (by simpa using hj)]

/-- Settles O24: the run is a run of SHIFT_IN, of which the count, the slots and the frame are known. -/
theorem accumulationLaw : Obligations.AccumulationLaw := by
  intro is s hcs1 hcnt hempty
  refine ⟨_, runEvents_of_not_mem_cs1 hcs1 s, ?_, foldl_shiftIn_slot_of_empty _ hempty,
    foldl_shiftIn_frame _ s⟩
  rw [foldl_shiftIn_cnt _ (by simp [State.CntOk, hcnt]), hcnt]
  simp

/-- Settles O20: BIT is SHIFT_IN. -/
theorem bitShiftsIn : Obligations.BitShiftsIn := fun v a b s =>
  ⟨s.shiftIn ⟨v, a, b⟩, rfl, shiftedSlots_zero _ _, shiftedSlots_succ _ _, countUp_toNat _, rfl⟩

/-- Settles O21: `min(cnt + 1, 33)` at 32, at 33 and below 32. -/
theorem countSaturates : Obligations.CountSaturates := by
  intro s b
  refine ⟨fun h => ?_, fun h => ?_, fun h => ?_⟩
  · rw [State.shiftIn_cnt, h]
    rfl
  · rw [State.shiftIn_cnt, h]
    rfl
  · rw [State.shiftIn_cnt, countUp_toNat]
    omega

/-- Settles O22: the words of these forms decode to these events. -/
theorem ignoredEventsChangeNothing : Obligations.IgnoredEventsChangeNothing := by
  refine fun s => ⟨rfl, rfl, rfl, fun posW ev h => exec_of_ignored ?_ s⟩
  obtain h1 | h2 | h3 := h
  · exact .inl (decode_of_low_bits_one h1)
  · exact .inr (.inl (decode_of_kind_two h2))
  · exact .inr (.inr (decode_of_kind_three h3))

/-- Settles O27: CLEAR writes the same slots and count whatever they were. -/
theorem clearIsIdempotent : Obligations.ClearIsIdempotent := fun s =>
  ⟨s.clear_cnt, fun j => by simp, s.clear_out, rfl⟩

/-- Outside its precondition EXTRACT raises FaultExtract (R85, R134). -/
theorem extract_of_precondition_fails {s : State} {offset width : Nat}
    (h : ¬ (1 ≤ width ∧ offset + width ≤ min s.cnt.toNat 32)) :
    s.extract offset width = .error (.extract offset width s.cnt.toNat) :=
  if_neg (mt (canExtract_iff s offset width).mp h)

/-- Inside its precondition EXTRACT stops with the fault its value read stops with (R84). -/
theorem extract_of_placeValue_error {s : State} {offset width : Nat} {f : Fault}
    (h1 : 1 ≤ width) (h2 : offset + width ≤ min s.cnt.toNat 32)
    (hf : s.placeValue offset width = .error f) : s.extract offset width = .error f := by
  rw [State.extract, if_pos ((canExtract_iff s offset width).mpr ⟨h1, h2⟩), hf]
  rfl

/-- Settles O33: the precondition is tested first, and then the value is read slot by slot, upward. -/
theorem extractFaults : Obligations.ExtractFaults := fun _ _ _ =>
  ⟨extract_of_precondition_fails, fun h1 h2 _ hlow hhigh hnone hbits =>
    extract_of_placeValue_error h1 h2 (placeValue_unwritten hlow hhigh hnone hbits)⟩

end Sys2Proof.Machine
end

section
/-! A run is the run of its BIT and CS 1 events (41_frame_decoder.md R122; 40_accumulator.md R87). -/

namespace Sys2Proof.Machine

/-- An event that does nothing may be dropped from the head of a run (R87, R157). -/
theorem runEvents_cons_of_ignored {i : Instr} (h : i = .cs0 ∨ i = .evk2 ∨ i = .evk3) (is : List Instr)
    (s : State) : runEvents (i :: is) s = runEvents is s := by
  rw [runEvents, exec_of_ignored h]

/-- A run goes on with the rest of its list, so it may be replaced by a rest that runs alike. -/
theorem runEvents_cons_congr {is js : List Instr} (h : ∀ s, runEvents is s = runEvents js s) (i : Instr)
    (s : State) : runEvents (i :: is) s = runEvents (i :: js) s := by
  simp only [runEvents, h]

/-- Settles O23, by induction on the events: one that is filtered out does nothing. -/
theorem ignoredEventsCanBeErased : Obligations.IgnoredEventsCanBeErased := by
  intro is
  induction is with
  | nil => exact fun _ => rfl
  | cons i rest ih =>
    intro s
    by_cases hkept : i ≠ .cs0 ∧ i ≠ .evk2 ∧ i ≠ .evk3
    · rw [List.filter_cons_of_pos (by exact decide_eq_true hkept)]
      exact runEvents_cons_congr ih i s
    · have hignored : i = .cs0 ∨ i = .evk2 ∨ i = .evk3 := by
        simpa only [not_and_or, not_not] using hkept
      rw [List.filter_cons_of_neg (by simpa only [decide_eq_true_eq] using hkept),
        runEvents_cons_of_ignored hignored, ih]

end Sys2Proof.Machine
end

section
/-! What EXTRACT answers, and on which slots a value and a span depend (41_frame_decoder.md R105, R120,
R121). -/

namespace Sys2Proof.Machine

/-- What EXTRACT read and tested when it answers (R84, R85). -/
theorem extract_eq_ok {s : State} {offset width : Nat} {x : Extracted}
    (h : s.extract offset width = .ok x) :
    1 ≤ width ∧ offset + width ≤ min s.cnt.toNat 32 ∧
      ∃ v, s.placeValue offset width = .ok v ∧ x.value = BitVec.ofNat 32 v := by
  unfold State.extract at h
  split at h
  next hcan =>
    obtain ⟨h1, h2⟩ := (canExtract_iff s offset width).mp hcan
    cases hv : s.placeValue offset width with
    | error f => simp [hv, bind, Except.bind] at h
    | ok v =>
      cases hsp : s.span offset width with
      | error f => simp [hv, hsp, bind, Except.bind] at h
      | ok sp =>
        simp only [hv, hsp, bind, Except.bind, Except.ok.injEq] at h
        exact ⟨h1, h2, v, rfl, by rw [← h]⟩
  next => cases h

/-- Settles O30: a place-value sum of at most 32 bits is not cut by the 32-bit value. -/
theorem extractedValueFits : Obligations.ExtractedValueFits := by
  intro s offset width x hx
  obtain ⟨-, hrange, v, hv, hvalue⟩ := extract_eq_ok hx
  have hwidth : width ≤ 32 := by omega
  have hlt : v < 2 ^ width := by
    rw [(placeValue_eq_ok hv).2]
    exact placeSum_lt _ _ _
  have htoNat : x.value.toNat = v := by
    rw [hvalue, BitVec.toNat_ofNat,
      Nat.mod_eq_of_lt (Nat.lt_of_lt_of_le hlt (Nat.pow_le_pow_right (by decide) hwidth))]
  rw [htoNat]
  exact ⟨hv, hlt, hwidth⟩

/-- Two words whose states agree on the bits of a field have the same field (R121). -/
theorem fieldOf_congr {s t : State} {w u : Word32} (hw : s.HoldsWord w) (hu : t.HoldsWord u)
    {offset width : Nat} (h : offset + width ≤ 32)
    (hbits : ∀ j, offset ≤ j → j < offset + width → s.bitAt j = t.bitAt j) :
    fieldOf w offset width = fieldOf u offset width := by
  apply BitVec.eq_of_toNat_eq
  rw [fieldOf_toNat_eq_placeSum hw h, fieldOf_toNat_eq_placeSum hu h, placeSum_congr _ _ hbits]

/-- In one span mode a span depends only on the tags of its two outer slots (R121). -/
theorem span_congr {s t : State} {offset width : Nat} (hmode : s.cfg.spanMode = t.cfg.spanMode)
    (hstart : s.startAt offset = t.startAt offset) (hend : s.endAt offset = t.endAt offset)
    (hstart' : s.startAt (offset + width - 1) = t.startAt (offset + width - 1))
    (hend' : s.endAt (offset + width - 1) = t.endAt (offset + width - 1)) :
    s.spanStart offset width = t.spanStart offset width ∧
      s.spanEnd offset width = t.spanEnd offset width := by
  unfold State.spanStart State.spanEnd
  rw [← hmode]
  cases s.cfg.spanMode with
  | doc => exact ⟨hstart, hend'⟩
  | temporal => exact ⟨hstart', hend⟩

/-- Settles O31: EXTRACT on a complete frame is the field of its word and the span of its outer slots. -/
theorem fieldsAreLocal : Obligations.FieldsAreLocal := by
  intro s t offset width hs ht hmode h1 h2 hbits
  obtain ⟨w, hw⟩ := s.exists_holdsWord
  obtain ⟨u, hu⟩ := t.exists_holdsWord
  have hvalue := fieldOf_congr hw hu h2 hbits
  refine ⟨⟨_, _, extract_of_word hs hw h1 h2, extract_of_word ht hu h1 h2, hvalue⟩, ?_⟩
  intro hstart hend hstart' hend'
  obtain ⟨hfrom, hto⟩ := span_congr hmode hstart hend hstart' hend'
  rw [extract_of_word hs hw h1 h2, extract_of_word ht hu h1 h2, hvalue, hfrom, hto]

/-- SPAN_MODE DOC: start tag of the low slot, end tag of the high slot (R105). -/
theorem span_of_doc {s : State} {offset width : Nat} {low high : Bit}
    (hlow : s.slots[offset]? = some (some low))
    (hhigh : s.slots[offset + width - 1]? = some (some high)) (hmode : s.cfg.spanMode = .doc) :
    s.span offset width = .ok (low.startPos, high.endPos) := by
  simp only [State.span, hmode, State.srStart, State.srEnd, readSlot_of_some hlow,
    readSlot_of_some hhigh]
  rfl

/-- SPAN_MODE TEMPORAL: start tag of the high slot, end tag of the low slot (R105). -/
theorem span_of_temporal {s : State} {offset width : Nat} {low high : Bit}
    (hlow : s.slots[offset]? = some (some low))
    (hhigh : s.slots[offset + width - 1]? = some (some high)) (hmode : s.cfg.spanMode = .temporal) :
    s.span offset width = .ok (high.startPos, low.endPos) := by
  simp only [State.span, hmode, State.srStart, State.srEnd, readSlot_of_some hlow,
    readSlot_of_some hhigh]
  rfl

/-- Settles O32: with width 1 the low slot is the high slot. -/
theorem spanTags : Obligations.SpanTags := by
  intro s offset width low high _ _ hlow hhigh
  refine ⟨span_of_doc hlow hhigh, span_of_temporal hlow hhigh, ?_⟩
  rintro rfl
  obtain rfl : low = high := by simpa [hlow] using hhigh
  cases hmode : s.cfg.spanMode with
  | doc => exact span_of_doc hlow hhigh hmode
  | temporal => exact span_of_temporal hlow hhigh hmode

end Sys2Proof.Machine
end

section
/-! The numerals of R108 and the texts of R109 (41_frame_decoder.md). -/

namespace Sys2Proof.Machine

/-- The digits are the characters from `0` to `9` (R108). -/
theorem isDigit_iff (c : Char) : c.isDigit ↔ '0' ≤ c ∧ c ≤ '9' := by
  simp only [Char.isDigit, Bool.and_eq_true, decide_eq_true_eq, ge_iff_le, Char.le_def]

/-- A digit character is read as its distance from the character `0`. -/
theorem digitValue_of_isDigit {c : Char} (h : c.isDigit) :
    digitValue c = some (c.toNat - 48) ∧ c.toNat - 48 < 10 := by
  have hrange : 48 ≤ c.toNat ∧ c.toNat ≤ 57 := (isDigit_iff c).mp h
  exact ⟨if_pos hrange, by omega⟩

/-- Reading digits in base 10 is the fold of R108. -/
theorem readDigits_eq_foldl {cs : List Char} (h : ∀ c ∈ cs, c.isDigit) (acc : Nat) :
    readDigits 10 cs acc = some (cs.foldl (fun acc c => acc * 10 + (c.toNat - 48)) acc) := by
  induction cs generalizing acc with
  | nil => rfl
  | cons c rest ih =>
    obtain ⟨hc, hrest⟩ := List.forall_mem_cons.mp h
    obtain ⟨hvalue, hlt⟩ := digitValue_of_isDigit hc
    simp [readDigits, hvalue, hlt, ih hrest]

/-- A numeral is made of digits. -/
theorem isDigit_of_mem_dec {n : Nat} {c : Char} (h : c ∈ (dec n).toList) : c.isDigit :=
  isDigit_of_mem_decDigits (acc := []) (by simp) c (by simpa [dec] using h)

/-- A positive digit is not written `0`. -/
theorem digitChar_ne_zero {d : Nat} (hlt : d < 10) (hpos : 0 < d) : Char.ofNat (48 + d) ≠ '0' := by
  revert d
  decide

/-- The digits of a positive number begin with one that is not 0. -/
theorem decDigits_head_ne_zero {fuel n : Nat} (hfuel : n < fuel) (hn : 0 < n) (acc : List Char) :
    (decDigits fuel n acc).head? ≠ some '0' := by
  induction fuel generalizing n acc with
  | zero => omega
  | succ k ih =>
    rw [decDigits]
    split
    next hlt => simpa using digitChar_ne_zero hlt hn
    next => exact ih (by omega) (by omega) _

/-- The digits of a numeral are read as its number. -/
theorem readDigits_dec (n : Nat) : readDigits 10 (dec n).toList 0 = some n := by
  simpa [dec, readDigits] using readDigits_decDigits (Nat.lt_succ_self n) []

/-- Settles O35: the digits are written most significant first until the rest is a single digit. -/
theorem decimalNumerals : Obligations.DecimalNumerals := by
  refine ⟨by decide, fun n => ⟨fun c hc => ?_, fun hn => ?_, dec_toList_ne_nil n, ?_⟩⟩
  · exact (isDigit_iff c).mp (isDigit_of_mem_dec hc)
  · simpa [dec] using decDigits_head_ne_zero (Nat.lt_succ_self n) hn []
  · have hread := readDigits_dec n
    rw [readDigits_eq_foldl fun _ => isDigit_of_mem_dec] at hread
    exact Option.some.inj hread

/-- Settles O34: `render` by the transform; a table answers inside its length only. -/
theorem renderByTransform : Obligations.RenderByTransform := by
  intro reg k v
  refine ⟨rfl, fun _ => rfl, fun labels hlt => ?_, fun labels hle => ?_⟩
  · simp only [render, List.getElem?_eq_getElem hlt]
  · simp only [render, List.getElem?_eq_none hle]

end Sys2Proof.Machine
end

section
/-! CS 1 by the count: a decoded frame, a discarded one, and what both leave (41_frame_decoder.md R100 to
R114). -/

namespace Sys2Proof.Machine

/-- Settles O36: every field of a started block passed R64, so the whole frame is extracted and rendered. -/
theorem frameDecodes : Obligations.FrameDecodes :=
  fun _ _ hstart hs hw => exec_cs1_of_word hstart hs hw

/-- Settles O37: the document's view maps the output, so it grows by the frame's records. -/
theorem documentStreamOfAFrame : Obligations.DocumentStreamOfAFrame := by
  intro s w hstart hs hw
  exact ⟨_, exec_cs1_of_word hstart hs hw, List.map_append⟩

/-- Settles O38: the length check of R101 is `cnt = 32`. -/
theorem wrongLengthIsDiscarded : Obligations.WrongLengthIsDiscarded :=
  fun _ => exec_cs1_of_wrong_length

/-- Settles O39: whatever it emits, CS 1 ends in the cleared state. -/
theorem deassertionAlwaysClears : Obligations.DeassertionAlwaysClears := by
  intro s t h
  obtain ⟨es, rfl, -⟩ := execCs1_cases h
  exact ⟨rfl, rfl, fun j => by simp, rfl⟩

/-- The slots of a state that meets R23 with a count of 0 hold nothing. -/
theorem State.SlotsOk.slots_of_empty {s : State} (h : s.SlotsOk) (hcnt : s.cnt = 0) :
    s.slots = Vector.replicate 32 none := by
  refine Vector.ext fun j hj => ?_
  simpa [State.filled, hcnt] using h ⟨j, hj⟩

/-- Settles O40: the invariant makes an empty ACCUMULATING block its own cleared state. -/
theorem emptyDeassertionChangesNothing : Obligations.EmptyDeassertionChangesNothing := by
  intro s hs hfsm hcnt
  have hslots := hs.slotsOk.slots_of_empty hcnt
  have hfl := (flushOk_iff_of_accumulating hfsm).mp hs.flushOk
  have hcleared : s.cleared = s := by rw [State.cleared, ← hslots, ← hcnt, ← hfsm, ← hfl]
  rw [exec_cs1_of_wrong_length (by simp [hcnt]), hcleared]

/-- Settles O41: the first CS 1 leaves a count of 0, and clearing twice is clearing once. -/
theorem secondDeassertionDoesNothing : Obligations.SecondDeassertionDoesNothing := by
  intro s t h
  obtain ⟨es, rfl, -⟩ := execCs1_cases h
  exact exec_cs1_of_wrong_length (by simp)

/-- Settles O43: BIT and the ignored events keep the output, and so does CS 1 on another count. -/
theorem onlyDecodedFramesEmit : Obligations.OnlyDecodedFramesEmit := by
  intro i s t h hout
  obtain ⟨v, a, b, -, rfl⟩ | ⟨rfl, es, rfl, ⟨hcnt, -⟩ | ⟨-, rfl⟩⟩ | ⟨-, rfl⟩ := exec_cases h
  · exact absurd rfl hout
  · exact ⟨rfl, hcnt⟩
  · exact absurd (List.append_nil _) hout
  · exact absurd rfl hout

end Sys2Proof.Machine
end

section
/-! The records of a complete frame whose CS 1 completes, without a premise on the schema (41_frame_decoder.md
R119). -/

namespace Sys2Proof.Machine

/-- On a complete frame EXTRACT answers nothing but the field of the word and its span (R66, R105). -/
theorem extract_eq_ok_of_word {s : State} {w : Word32} (hs : s.FrameReady) (hw : s.HoldsWord w)
    {offset width : Nat} {x : Extracted} (h : s.extract offset width = .ok x) :
    x = ⟨fieldOf w offset width, s.spanStart offset width, s.spanEnd offset width⟩ := by
  obtain ⟨h1, h2, -⟩ := extract_eq_ok h
  rw [extract_of_word hs hw h1 (by omega)] at h
  exact (Except.ok.inj h).symm

/-- What one round of the field loop did when the loop completes (R107). -/
theorem fieldEmissions_cons_eq_ok {s : State} {reg : RegId} {k : Nat} {d : FieldDesc}
    {rest : List FieldDesc} {es : List Emission}
    (h : s.fieldEmissions reg k (d :: rest) = .ok es) :
    ∃ x l es', s.extract d.offset d.width = .ok x ∧ render reg k d.xform x.value = .ok l ∧
      s.fieldEmissions reg (k + 1) rest = .ok es' ∧
      es = ⟨⟨.field, reg, k, x.value, x.startPos, x.endPos⟩, d.name ++ ": " ++ l⟩ :: es' := by
  simp only [State.fieldEmissions, fieldEmission, bind, Except.bind] at h
  cases hx : s.extract d.offset d.width with
  | error f => simp [hx] at h
  | ok x =>
    cases hl : render reg k d.xform x.value with
    | error f => simp [hx, hl] at h
    | ok l =>
      cases hr : s.fieldEmissions reg (k + 1) rest with
      | error f => simp [hx, hl, hr] at h
      | ok es' => exact ⟨x, l, es', rfl, hl, rfl, by simpa [hx, hl, hr] using h.symm⟩

/-- A field loop that completes on a complete frame emitted the FIELD records of its word (R107). -/
theorem fieldEmissions_eq_ok_of_word {s : State} {w : Word32} (hs : s.FrameReady) (hw : s.HoldsWord w)
    {fs : List FieldDesc} {k : Nat} {es : List Emission}
    (h : s.fieldEmissions (w.setWidth 4) k fs = .ok es) :
    es = fs.mapIdx fun i d => fieldEmissionOf s w (k + i) d := by
  induction fs generalizing k es with
  | nil => exact (Except.ok.inj h).symm
  | cons d rest ih =>
    obtain ⟨x, l, es', hx, hl, hes', rfl⟩ := fieldEmissions_cons_eq_ok h
    obtain rfl := extract_eq_ok_of_word hs hw hx
    obtain rfl := render_eq_ok hl
    obtain rfl := ih hes'
    simp [fieldEmissionOf, Nat.add_assoc, Nat.add_comm 1]

/-- The emissions of a complete frame: the SEL record, then the field loop of its register (R104, R107). -/
theorem frameEmissions_eq_map {s : State} {w : Word32} (hs : s.FrameReady) (hw : s.HoldsWord w) :
    s.frameEmissions =
      (s.fieldEmissions (w.setWidth 4) 0 (fieldList s.cfg.schema (w.setWidth 4))).map
        (selectorEmission s w :: ·) := by
  have hsel := extract_of_word hs hw (offset := selOffset) (width := selWidth) (by decide) (by decide)
  rw [frameEmissions_eq, hsel]
  simp only [Except.bind, fieldOf_selector]
  rfl

/-- A complete frame that is decoded emits the records of its word, whatever the schema (R119). -/
theorem frameEmissions_eq_ok_of_word {s : State} {w : Word32} (hs : s.FrameReady) (hw : s.HoldsWord w)
    {es : List Emission} (h : s.frameEmissions = .ok es) : es = frameEmissionsOf s w := by
  rw [frameEmissions_eq_map hs hw] at h
  cases hf : s.fieldEmissions (w.setWidth 4) 0 (fieldList s.cfg.schema (w.setWidth 4)) with
  | error f => simp [hf, Except.map] at h
  | ok fields =>
    obtain rfl := fieldEmissions_eq_ok_of_word hs hw hf
    simpa [hf, Except.map, frameEmissionsOf] using h.symm

/-- Record `k + 1` of a frame is the FIELD record of field `k` (R119). -/
theorem frameEmissionsOf_field {s : State} {w : Word32} {k : Nat} {d : FieldDesc}
    (hd : (fieldList s.cfg.schema (w.setWidth 4))[k]? = some d) :
    (frameEmissionsOf s w)[k + 1]? = some (fieldEmissionOf s w k d) := by
  simp [frameEmissionsOf, hd]

/-- Settles O42: what a frame appends is `frameEmissionsOf`, which lists SEL and then the fields. -/
theorem emissionOrder : Obligations.EmissionOrder := by
  intro s t w es hs hw h hout
  obtain ⟨es', rfl, ⟨-, hes'⟩ | ⟨hcnt, -⟩⟩ := execCs1_cases h
  · obtain rfl : es' = es := List.append_cancel_left hout
    obtain rfl := frameEmissions_eq_ok_of_word hs hw hes'
    refine ⟨?_, ⟨selectorEmission s w, rfl, rfl, rfl⟩, fun k hk => ?_⟩
    · rw [frameEmissionsOf_length, Nat.add_comm]
    · exact ⟨_, frameEmissionsOf_field (List.getElem?_eq_getElem hk), rfl, rfl, rfl⟩
  · exact absurd hs.1 hcnt

end Sys2Proof.Machine
end

section
/-! The registers of a reference schema and their labels (41_frame_decoder.md R115 to R118). -/

namespace Sys2Proof.Machine

/-- The register id of a frame word is its value modulo 16 (R7). -/
theorem selector_toNat (w : Word32) : (w.setWidth 4).toNat = w.toNat % 16 :=
  BitVec.toNat_setWidth 4 w

/-- A frame of a register without fields emits its SEL record alone (R115, R116). -/
theorem exec_cs1_of_no_fields {s : State} {w : Word32} (hs : s.FrameReady) (hw : s.HoldsWord w)
    (hfields : fieldList s.cfg.schema (w.setWidth 4) = []) :
    exec .cs1 s = .next { s.cleared with out := s.out ++ [selectorEmission s w] } := by
  show execCs1 s = _
  rw [execCs1_eq, if_pos hs.1, frameEmissions_eq_map hs hw, hfields]
  rfl

/-- R117: the ids 5, 8 and 11 are empty, and those above 12 are ABSENT. -/
theorem fieldList_eq_nil_of_isReference {sch : Schema} (h : sch.IsReference) {reg : RegId}
    (hreg : reg.toNat = 5 ∨ reg.toNat = 8 ∨ reg.toNat = 11 ∨ 13 ≤ reg.toNat) :
    fieldList sch reg = [] := by
  by_cases habsent : 13 ≤ reg.toNat
  · refine fieldList_of_unknown ?_
    rw [regKnown, h.domain reg, decide_eq_false_iff_not]
    omega
  · simp [fieldList, h.reserved reg (by omega)]

/-- Settles O44: these registers have no fields, so the SEL record stands alone. -/
theorem emptyAndUnknownRegisters : Obligations.EmptyAndUnknownRegisters := by
  intro s w href hs hw hid
  have hfields : fieldList s.cfg.schema (w.setWidth 4) = [] :=
    fieldList_eq_nil_of_isReference href (by rwa [selector_toNat])
  have hlabel : (selectorEmission s w).label = "Register: " ++ dec (w.toNat % 16) := by
    rw [← selector_toNat]
    rfl
  refine ⟨_, exec_cs1_of_no_fields hs hw hfields, rfl, selector_toNat w, hlabel, fun h13 => ?_⟩
  rw [hlabel, h13]
  decide

/-- The text R118 gives for a value is the text a frame's label shows for it. -/
theorem textOf_of_labelOf {d : FieldDesc} {v : Word32} {l : String}
    (h : d.labelOf v.toNat = some l) : textOf d.xform v = l := by
  rw [FieldDesc.labelOf, BitVec.ofNat_toNat, BitVec.setWidth_eq] at h
  cases hr : render 0 0 d.xform v with
  | error f => rw [hr] at h; cases h
  | ok l' =>
    rw [hr] at h
    obtain rfl : l' = l := Option.some.inj h
    exact (render_eq_ok hr).symm

/-- The labels of a frame: the register's, then one for each field (R110, R111). -/
theorem frameEmissionsOf_labels (s : State) (w : Word32) :
    (frameEmissionsOf s w).map Emission.label =
      ("Register: " ++ dec (w.toNat % 16)) ::
        (fieldList s.cfg.schema (w.setWidth 4)).map fun d =>
          d.name ++ ": " ++ textOf d.xform (fieldOf w d.offset d.width) := by
  rw [← selector_toNat, frameEmissionsOf, List.map_cons]
  refine congrArg (List.cons _) (List.ext_getElem? fun k => ?_)
  simp only [List.getElem?_map, List.getElem?_mapIdx, Option.map_map]
  rfl

/-- Settles O45: R118 names the three fields and gives two of the texts; INT shows its numeral. -/
theorem registerZeroLabels : Obligations.RegisterZeroLabels := by
  intro s w int pre cal hstart href hs hw hid hlookup hint hpre hcal
  obtain ⟨_, _, _, hfields, hintName, hintForm, -, hpreName, hpreText, hcalName, hcalText⟩ :=
    href.register0
  obtain ⟨rfl, rfl, rfl⟩ : int = _ ∧ pre = _ ∧ cal = _ := by
    simpa using hlookup.symm.trans hfields
  have hreg : w.setWidth 4 = 0 := BitVec.eq_of_toNat_eq (by rw [selector_toNat, hid]; rfl)
  refine ⟨_, _, exec_cs1_of_word hstart hs hw, rfl, ?_⟩
  rw [frameEmissionsOf_labels, hid, hreg, fieldList, hlookup]
  simp only [Option.getD_some, List.map_cons, List.map_nil, hint, hpre, hcal, hintName, hintForm,
    hpreName, hcalName, textOf_of_labelOf (v := 1) hpreText, textOf_of_labelOf (v := 1) hcalText]
  decide

/-- The four texts R118 gives for RF Output Power, as the table of the document. -/
theorem textOf_of_rfOutputPower {d : FieldDesc} (h0 : d.labelOf 0 = some "-4dBm")
    (h1 : d.labelOf 1 = some "-1dBm") (h2 : d.labelOf 2 = some "+2dBm")
    (h3 : d.labelOf 3 = some "+5dBm") {v : Word32} (hv : v.toNat < 4) :
    ["-4dBm", "-1dBm", "+2dBm", "+5dBm"][v.toNat]? = some (textOf d.xform v) := by
  obtain h | h | h | h : v.toNat = 0 ∨ v.toNat = 1 ∨ v.toNat = 2 ∨ v.toNat = 3 := by omega
  · rw [textOf_of_labelOf (h ▸ h0), h]; rfl
  · rw [textOf_of_labelOf (h ▸ h1), h]; rfl
  · rw [textOf_of_labelOf (h ▸ h2), h]; rfl
  · rw [textOf_of_labelOf (h ▸ h3), h]; rfl

/-- Settles O46: the field of R118 stands at an index of register 6, and its value has two bits. -/
theorem rfOutputPowerLabels : Obligations.RfOutputPowerLabels := by
  intro s w hstart href hs hw hid
  obtain ⟨fs, hlookup, d, hmem, hname, hwidth, h0, h1, h2, h3⟩ := href.register6
  obtain ⟨k, hk⟩ := List.mem_iff_getElem?.mp hmem
  have hfield : (fieldList s.cfg.schema 6)[k]? = some d := by rw [fieldList, hlookup]; exact hk
  have hreg : w.setWidth 4 = 6 := BitVec.eq_of_toNat_eq (by rw [selector_toNat, hid]; rfl)
  have hlt : (fieldOf w d.offset d.width).toNat < 4 :=
    calc _ < 2 ^ d.width := fieldOf_toNat_lt w d.offset d.width
      _ = 4 := by rw [hwidth]; rfl
  refine ⟨k, d, hfield, hname, hwidth, _, _, fieldEmissionOf s w k d,
    textOf d.xform (fieldOf w d.offset d.width), exec_cs1_of_word hstart hs hw, rfl,
    frameEmissionsOf_field (hreg ▸ hfield), rfl, hreg, rfl, rfl,
    textOf_of_rfOutputPower h0 h1 h2 h3 hlt, ?_⟩
  rw [fieldEmissionOf, hname]
  rfl

end Sys2Proof.Machine
end

section
/-! No input makes a started block stop (60_exceptions.md R130, R131): every event, every edge and so every
step answers a next state, where the slots agree with the count and, in a flush, the registers name a record;
and with nothing to take the block holds (R142). -/

namespace Sys2Proof.Machine

/-- A started block performs every event: CS 1 decodes a complete frame or discards what it holds (R130). -/
theorem exec_goes {s : State} (hstart : Startable s.cfg) (hslots : s.SlotsOk) (i : Instr) :
    ∃ t, exec i s = .next t := by
  cases i with
  | bit v a b => exact ⟨_, rfl⟩
  | cs0 => exact ⟨_, rfl⟩
  | cs1 =>
    by_cases hcnt : s.cnt = 32
    · obtain ⟨w, hw⟩ := s.exists_holdsWord
      exact ⟨_, exec_cs1_of_word hstart ⟨hcnt, hslots.full hcnt⟩ hw⟩
    · exact ⟨_, exec_cs1_of_wrong_length hcnt⟩
  | evk2 => exact ⟨_, rfl⟩
  | evk3 => exact ⟨_, rfl⟩

/-- A full block has a frame word to latch, so its flush starts (R42, R160). -/
theorem startFlush_goes {s : State} (hfull : s.Full) : ∃ t, s.startFlush = .ok t := by
  obtain ⟨w, hw⟩ := s.exists_holdsWord
  exact ⟨_, by rw [State.startFlush, frameWord_of_word hfull hw]; rfl⟩

/-- The accepting edge of any event goes, whatever the schema (R160). -/
theorem acceptEvent_goes {s : State} (hslots : s.SlotsOk) (i : Instr) :
    ∃ t, acceptEvent i s = .next t := by
  cases i with
  | bit v a b => exact ⟨_, rfl⟩
  | cs0 => exact ⟨_, rfl⟩
  | cs1 =>
    by_cases hlen : lenOk s = true
    · obtain ⟨t, ht⟩ := startFlush_goes (hslots.full ((lenOk_iff s).mp hlen))
      exact ⟨t, by rw [acceptEvent, if_pos hlen, ht, raise_ok]⟩
    · exact ⟨s.clear, if_neg hlen⟩
  | evk2 => exact ⟨_, rfl⟩
  | evk3 => exact ⟨_, rfl⟩

/-- The delivery of a frame's last record hands it over and ends the flush (R113, R160). -/
theorem deliver_of_last {s : State} {r : FlushRegs} {e : Emission} (hfl : s.fl = some r)
    (hdue : s.dueEmission r = .ok e) (hlast : r.afterDelivery s.cfg.schema = none) :
    s.deliver = .ok (s.emit [e]).endFrame := by
  simp [State.deliver, hfl, hdue, hlast, bind, Except.bind]

/-- A flushing block that meets the invariant has a record due, so its delivery goes (R28, R160). -/
theorem State.Inv.deliver_goes {s : State} (hs : s.Inv) (hstart : Startable s.cfg)
    (hfsm : s.fsm = .flushing) : ∃ t, s.deliver = .ok t := by
  obtain ⟨hready, w, m, e, hfl, he⟩ := hs.flushing hfsm
  have hdue := dueEmission_due hstart hready he
  cases hnext : (FlushRegs.due w m).afterDelivery s.cfg.schema with
  | none => exact ⟨_, deliver_of_last hfl hdue hnext⟩
  | some r => exact ⟨_, deliver_of_due hfl hdue hnext⟩

/-- Every edge of a started block that meets the invariant goes (R130, R160). -/
theorem State.Inv.clockEdge_goes {s : State} (hs : s.Inv) (hstart : Startable s.cfg) (p : Pins) :
    ∃ t, Machine.clockEdge p s = .next t := by
  cases hrst : p.rst with
  | true => exact ⟨s.hardReset, if_pos hrst⟩
  | false =>
    cases hfsm : s.fsm with
    | accumulating =>
      rw [clockEdge_of_ready ((inReady_eq_true_iff _ _).mpr ⟨hrst, hfsm⟩)]
      split
      · exact acceptEvent_goes hs.slotsOk _
      · exact ⟨s, rfl⟩
    | flushing =>
      rw [clockEdge_of_flushing hrst hfsm]
      split
      · obtain ⟨t, ht⟩ := hs.deliver_goes hstart hfsm
        exact ⟨t, by rw [ht, raise_ok]⟩
      · exact ⟨s, rfl⟩

/-- A started block takes the edge it fetched (R160). -/
theorem step_of_fetch_edge {s t : State} {p : Pins} (hstart : Startable s.cfg)
    (hfetch : s.fetch = .edge p t) : step s = clockEdge p t := by
  have hproblem : s.cfg.problem = none := hstart
  simp [step, hproblem, hfetch]

/-- A started block that fetched nothing stays as it is (R142). -/
theorem step_of_fetch_hold {s : State} (hstart : Startable s.cfg) (hfetch : s.fetch = .hold) :
    step s = .next s := by
  have hproblem : s.cfg.problem = none := hstart
  simp [step, hproblem, hfetch]

/-- Settles O18: a step holds, or performs an event or takes an edge with that input taken from a state
that still meets the invariant. -/
theorem stepAlwaysGoes : Obligations.StepAlwaysGoes := by
  intro s hs hstart
  obtain hhold | ⟨ev, rest, -, -, hevent⟩ | ⟨p, rest, -, hedge⟩ := fetch_cases s
  · exact ⟨s, step_of_fetch_hold hstart hhold⟩
  · rw [step_of_fetch_event hstart hevent]
    exact exec_goes (s := { s with inputs := rest }) hstart (hs.with_inputs rest).slotsOk _
  · rw [step_of_fetch_edge hstart hedge]
    exact (hs.with_inputs rest).clockEdge_goes hstart p

/-- An event keeps R23, from any state and whatever its operands. -/
theorem State.SlotsOk.exec {i : Instr} {s t : State} (hs : s.SlotsOk) (h : exec i s = .next t) :
    t.SlotsOk := by
  obtain ⟨v, a, b, -, rfl⟩ | ⟨-, es, rfl, -⟩ | ⟨-, rfl⟩ := exec_cases h
  · exact hs.shiftIn ⟨v, a, b⟩
  · exact fun j => by simp [State.filled]
  · exact hs

/-- Settles O19, by induction on the events: each goes, and keeps the configuration and R23 for the rest. -/
theorem eventsNeverStop : Obligations.EventsNeverStop := by
  intro is
  induction is with
  | nil => exact fun s _ _ => ⟨s, rfl⟩
  | cons i rest ih =>
    intro s hslots hstart
    obtain ⟨t, ht⟩ := exec_goes hstart hslots i
    have hcfg : t.cfg = s.cfg := (exec_extendsOutput ht).cfg
    rw [runEvents, ht]
    exact ih t (hslots.exec ht) (by rwa [hcfg])

/-- With no input nothing is fetched (R142). -/
theorem fetch_of_no_input {s : State} (hin : s.inputs = []) : s.fetch = .hold := by
  simp [State.fetch, hin]

/-- An event that is next while FLUSHING is not fetched (R61). -/
theorem fetch_of_event_while_flushing {s : State} {ev : Nat} {rest : List Input}
    (hin : s.inputs = .event ev :: rest) (hfsm : s.fsm = .flushing) : s.fetch = .hold := by
  simp [State.fetch, hin, inReady_of_flushing false hfsm]

/-- Settles O10: in both cases the block fetches nothing. -/
theorem stepHoldsWithoutAcceptedInput : Obligations.StepHoldsWithoutAcceptedInput :=
  fun _ hstart =>
    ⟨fun hin => step_of_fetch_hold hstart (fetch_of_no_input hin),
      fun _ _ hin hfsm => step_of_fetch_hold hstart (fetch_of_event_while_flushing hin hfsm)⟩

end Sys2Proof.Machine
end

section
/-! What a refused configuration records (30_encoding.md R64; 60_exceptions.md R131 code 1): an entry that
fails the check, and for a check on single fields a field that fails it. -/

namespace Sys2Proof.Machine

/-- What a refusal records of a configuration is a failure of it: of MAX_FIELDS (log 12), or of an entry and,
for a check on single fields, of a field of that entry (log 11). -/
def Refusal.Names (cfg : Config) : Refusal → Prop
  | .notModelled _ => False
  | .maxFields n => n = cfg.maxFields ∧ n < 3
  | .schema check reg field =>
    ∃ fs, (reg, fs) ∈ cfg.schema ∧ ¬ EntryMeets cfg.maxFields reg fs check ∧
      ((check = .wfIds ∨ check = .wfCount) ∧ field = none ∨
        ∃ k d, field = some k ∧ fs[k]? = some d ∧ FieldFails (fs.take k) d check)

/-- An entry with a field that fails a check fails the check (R64). -/
theorem not_entryMeets_of_fieldFails {maxFields reg k : Nat} {fs : List FieldDesc} {d : FieldDesc}
    {check : SchemaCheck} (hd : fs[k]? = some d) (hfails : FieldFails (fs.take k) d check) :
    ¬ EntryMeets maxFields reg fs check := by
  have hmem : d ∈ fs := List.mem_of_getElem? hd
  cases check with
  | wfIds => exact hfails.elim
  | wfWidth =>
    have hzero : d.width = 0 := hfails
    exact fun hmeets => Nat.not_lt.mpr (hmeets d hmem) (by omega)
  | wfRange => exact fun hmeets => Nat.not_le.mpr hfails (hmeets d hmem)
  | wfTotal =>
    obtain ⟨labels, hlut, hlt⟩ := hfails
    exact fun hmeets => Nat.not_le.mpr hlt (hmeets d hmem labels hlut)
  | wfDisjoint =>
    obtain ⟨a, ha, i, ⟨h1, h2⟩, h3, h4⟩ := hfails
    have hlater : d ∈ fs.drop k := List.mem_of_getElem? (i := 0) (by simpa using hd)
    intro hmeets
    rw [EntryMeets, ← List.take_append_drop k fs, List.pairwise_append] at hmeets
    obtain ⟨-, -, happart⟩ := hmeets
    exact happart a ha d hlater i ⟨h1, h2, h3, h4⟩
  | wfCount => exact hfails.elim

/-- What a check on single fields refuses names a failure, when what it calls bad fails the check. -/
theorem names_of_fieldProblem {cfg : Config} {check : SchemaCheck}
    {bad : List FieldDesc → FieldDesc → Bool} {r : Refusal}
    (h : Schema.fieldProblem check bad cfg.schema = some r)
    (hbad : ∀ before d, bad before d = true → FieldFails before d check) : r.Names cfg := by
  obtain ⟨reg, fs, k, hmem, hfirst, rfl⟩ := Schema.fieldProblem_eq_some h
  obtain ⟨i, d, hk, hd, hb⟩ := firstBadField_eq_some hfirst
  obtain rfl : k = i := by rw [hk, Nat.zero_add]
  have hfails : FieldFails (fs.take k) d check := hbad _ d hb
  exact ⟨fs, hmem, not_entryMeets_of_fieldFails hd hfails, .inr ⟨k, d, rfl, hd, hfails⟩⟩

/-- What a check on a whole entry refuses names a failure, when what it calls bad fails the check. -/
theorem names_of_entryProblem {cfg : Config} {check : SchemaCheck} {bad : Nat → List FieldDesc → Bool}
    {r : Refusal} (h : Schema.entryProblem check bad cfg.schema = some r)
    (hcheck : check = .wfIds ∨ check = .wfCount)
    (hbad : ∀ reg fs, bad reg fs = true → ¬ EntryMeets cfg.maxFields reg fs check) : r.Names cfg := by
  obtain ⟨reg, fs, hmem, hb, rfl⟩ := Schema.entryProblem_eq_some h
  exact ⟨fs, hmem, hbad reg fs hb, .inl ⟨hcheck, rfl⟩⟩

/-- A transform that is not total has a table with too few labels (R64 WF_TOTAL). -/
theorem exists_short_table {width : Nat} {x : Transform} (h : x.totalOn width = false) :
    ∃ labels, x = .lut labels ∧ labels.length < 2 ^ width := by
  rw [← Bool.not_eq_true, Transform.totalOn_iff] at h
  simpa using h

/-- Whatever the checks find in a configuration is a failure of it (R11, R64). -/
theorem names_of_problem {cfg : Config} {r : Refusal} (h : cfg.problem = some r) : r.Names cfg := by
  unfold Config.problem at h
  split at h
  next hmax =>
    obtain rfl : Refusal.maxFields cfg.maxFields = r := Option.some.inj h
    exact ⟨rfl, hmax⟩
  next =>
    simp only [Option.orElse_eq_some] at h
    obtain hids | ⟨-, hwidth | ⟨-, hrange | ⟨-, htotal | ⟨-, hdisjoint | ⟨-, hcount⟩⟩⟩⟩⟩ := h
    · exact names_of_entryProblem hids (.inl rfl) fun _ _ hb => by simpa [EntryMeets] using hb
    · exact names_of_fieldProblem hwidth fun _ _ hb => by simpa [FieldFails] using hb
    · exact names_of_fieldProblem hrange fun _ _ hb => by simpa [FieldFails] using hb
    · exact names_of_fieldProblem htotal fun _ _ hb => exists_short_table (by simpa using hb)
    · refine names_of_fieldProblem hdisjoint fun _ d hb => ?_
      obtain ⟨a, ha, hoverlaps⟩ := List.any_eq_true.mp hb
      exact ⟨a, ha, (FieldDesc.overlaps_eq_true a d).mp hoverlaps⟩
    · exact names_of_entryProblem hcount (.inr rfl) fun _ _ hb => by simpa [EntryMeets] using hb

/-- A step refuses with what the checks of the configuration found, and with nothing else (R131). -/
theorem step_eq_refused_iff {s : State} {r : Refusal} :
    step s = .refused r ↔ s.cfg.problem = some r := by
  cases hproblem : s.cfg.problem with
  | some r' => simp [step, hproblem]
  | none =>
    exact iff_of_false (fun h => step_refused_iff.mp ⟨r, h⟩ hproblem) (by simp)

/-- Settles O13: a refusal is a problem of the configuration, which names its failure, and MAX_FIELDS is
looked at first. -/
theorem refusalNamesTheFailure : Obligations.RefusalNamesTheFailure := by
  refine fun s => ⟨fun check reg field h => names_of_problem (step_eq_refused_iff.mp h), fun hmax => ?_⟩
  rw [step_eq_refused_iff, Config.problem, if_pos hmax]

end Sys2Proof.Machine
end

section
/-! The edges of a reset and of an accepted event (70_reset_and_hazards.md R150 to R152, R160), and the
whole flush against the event step of CS 1 (92_eei_decisions.md D1). -/

namespace Sys2Proof.Machine

/-- An edge that goes, before the edges of a list. -/
theorem runEdges_cons_of_next {p : Pins} {s t : State} (h : clockEdge p s = .next t) (ps : List Pins) :
    runEdges (p :: ps) s = runEdges ps t := by
  rw [runEdges, h]

/-- The edges of two lists, one after the other. -/
theorem runEdges_append_of_next {ps qs : List Pins} {s t : State} (h : runEdges ps s = .next t) :
    runEdges (ps ++ qs) s = runEdges qs t := by
  induction ps generalizing s with
  | nil =>
    obtain rfl : s = t := Host.Outcome.next.inj h
    rfl
  | cons p rest ih =>
    cases hedge : clockEdge p s with
    | next u =>
      rw [runEdges_cons_of_next hedge] at h
      rw [List.cons_append, runEdges_cons_of_next hedge]
      exact ih h
    | fault f => simp [runEdges, hedge] at h
    | refused r => simp [runEdges, hedge] at h

/-- Delivering the record of the last field, or the selector where there is no field, ends the flush (R160). -/
theorem FlushRegs.due_afterDelivery_last {sch : Schema} {w : Word32} {m : Nat}
    (h : m = (fieldList sch (w.setWidth 4)).length) : (FlushRegs.due w m).afterDelivery sch = none := by
  cases m with
  | zero =>
    have hnil : fieldList sch (w.setWidth 4) = [] := List.length_eq_zero_iff.mp h.symm
    simp [FlushRegs.due, FlushRegs.afterDelivery, hnil]
  | succ k => simp [FlushRegs.due, FlushRegs.afterDelivery, ← h]

/-- The delivery of a frame's last record leaves the block cleared, with all the frame's records delivered
(R113, R160). -/
theorem deliver_flushingAt_last {s : State} {w : Word32} (hstart : Startable s.cfg) (hs : s.FrameReady)
    {m : Nat} (hm : m + 1 = (frameEmissionsOf s w).length) :
    (s.flushingAt w m).deliver = .ok { s.cleared with out := s.out ++ frameEmissionsOf s w } := by
  have hlt : m < (frameEmissionsOf s w).length := by omega
  have hdue := dueEmission_flushingAt hstart hs (List.getElem?_eq_getElem hlt)
  have hlast : (FlushRegs.due w m).afterDelivery s.cfg.schema = none :=
    FlushRegs.due_afterDelivery_last (by rw [frameEmissionsOf_length] at hm; omega)
  have hall : (frameEmissionsOf s w).take m ++ [(frameEmissionsOf s w)[m]] = frameEmissionsOf s w := by
    rw [List.take_append_getElem, hm, List.take_length]
  rw [deliver_of_last rfl hdue hlast, State.endFrame_eq_cleared]
  simp [State.cleared, State.emit, State.flushingAt, hall]

/-- Settles O54: the edges before the last leave the last record due, and delivering it ends where the event
step of CS 1 does. -/
theorem flushRefinesDeassertion : Obligations.FlushRefinesDeassertion := by
  intro s w p last ps hstart hs hw hfsm hrst hvalid hcs1 hps hlast hready hcount
  have hrun : runEdges ps (s.flushingAt w 0) = .next (s.flushingAt w (ps.countP Pins.annReady)) := by
    simpa using runEdges_flushingAt hstart hs hps (m := 0) (by omega)
  have hend : clockEdge last (s.flushingAt w (ps.countP Pins.annReady)) =
      .next { s.cleared with out := s.out ++ frameEmissionsOf s w } := by
    rw [clockEdge_of_flushing hlast rfl, if_pos hready, deliver_flushingAt_last hstart hs hcount, raise_ok]
  calc runEdges (p :: ps ++ [last]) s
      = runEdges (ps ++ [last]) (s.flushingAt w 0) :=
        runEdges_cons_of_next (clockEdge_startFlush hs hw hfsm hrst hvalid hcs1) _
    _ = runEdges [last] (s.flushingAt w (ps.countP Pins.annReady)) := runEdges_append_of_next hrun
    _ = .next { s.cleared with out := s.out ++ frameEmissionsOf s w } := runEdges_cons_of_next hend []
    _ = exec .cs1 s := (exec_cs1_of_word hstart hs hw).symm

/-- An accepted event other than CS 1 does at its edge what its event step does (R160). -/
theorem acceptEvent_of_ne_cs1 {i : Instr} (hi : i ≠ .cs1) (s : State) : acceptEvent i s = exec i s := by
  cases i with
  | bit v a b => rfl
  | cs0 => rfl
  | cs1 => exact absurd rfl hi
  | evk2 => rfl
  | evk3 => rfl

/-- The accepting edge of CS 1 on a frame of another length discards it (R102, R160). -/
theorem acceptEvent_cs1_of_wrong_length {s : State} (hcnt : s.cnt ≠ 32) :
    acceptEvent .cs1 s = .next s.clear :=
  if_neg (mt (lenOk_iff s).mp hcnt)

/-- CLEAR is all that the end of a frame does to an ACCUMULATING block, whose flush registers hold nothing
(R28, R113). -/
theorem State.Inv.clear_eq_cleared {s : State} (hs : s.Inv) (hfsm : s.fsm = .accumulating) :
    s.clear = s.cleared := by
  have hfl := (flushOk_iff_of_accumulating hfsm).mp hs.flushOk
  rw [State.clear, State.cleared, ← hfsm, ← hfl]

/-- Settles O50: only a CS 1 differs between the levels, and one that discards ends cleared on both. -/
theorem acceptedEventIsTheEventStep : Obligations.AcceptedEventIsTheEventStep := by
  intro p s hs hfsm hrst hvalid hevent
  rw [clockEdge_of_ready ((inReady_eq_true_iff _ _).mpr ⟨hrst, hfsm⟩), if_pos hvalid]
  by_cases hcs1 : decode s.cfg.posW p.inWord = .cs1
  · have hcnt : s.cnt ≠ 32 := hevent.resolve_left (not_not_intro hcs1)
    rw [hcs1, acceptEvent_cs1_of_wrong_length hcnt, exec_cs1_of_wrong_length hcnt,
      hs.clear_eq_cleared hfsm]
  · exact acceptEvent_of_ne_cs1 hcs1 s

/-- An edge that is next is fetched, whatever the block is doing (R160). -/
theorem fetch_of_edge {s : State} {p : Pins} {rest : List Input} (hin : s.inputs = .edge p :: rest) :
    s.fetch = .edge p { s with inputs := rest } := by
  simp [State.fetch, hin]

/-- Settles O9: the edge is what a started block fetches. -/
theorem stepTakesEdge : Obligations.StepTakesEdge :=
  fun _ _ _ hstart hin => step_of_fetch_edge hstart (fetch_of_edge hin)

/-- Settles O15, register by register. -/
theorem resetState : Obligations.ResetState :=
  fun cfg => ⟨State.resetWith_cnt cfg, State.resetWith_fsm cfg, fun j => by simp,
    State.resetWith_fl cfg, by simp [annValid]⟩

/-- Settles O51: `rst` closes both ports, and the edge looks at nothing else. -/
theorem resetEdge : Obligations.ResetEdge :=
  fun _ _ hrst => ⟨by simp [inReady, hrst], by simp [annValid, hrst], if_pos hrst⟩

/-- Settles O52: with record 0 due nothing of the frame is delivered yet. -/
theorem flushStarts : Obligations.FlushStarts := by
  intro p s w hs hw hfsm hrst hvalid hcs1
  rw [clockEdge_startFlush hs hw hfsm hrst hvalid hcs1]
  simp [State.flushingAt, FlushRegs.due]

end Sys2Proof.Machine
end
